-- ==== Sys2Proof/Config.lean ====
section
/-! DEFINITION. The parameters of the block (spec/00_scope.md R8, R9) and its free values.

The numbers are the spec's: fixed by R8, or decided by spec/92_eei_decisions.md. The OPEN parameters ADDR_W, STATUS_EINVAL
and N_CALLERS are fields of State that no step changes; here stands only what they are in State.reset. What the spec leaves
open without a value (DEV_SLOT, N_CALLERS at reset, the state before INIT, the answers of the copy primitive) is an `opaque`
constant: no proof can learn what it is. -/

namespace Sys2Proof

/-- LEN_W: the length operand is 32 bits, unsigned (R9, D5). -/
abbrev Config.lenW : Nat := 32

/-- ADDR_W's default (R9, D6): what State.addrW is in State.reset. The parameter itself is State.addrW (log 12). -/
abbrev Config.defaultAddrW : Nat := 64

/-- RET_W: a status is 32 bits, signed two's complement (R9, D7). -/
abbrev Config.retW : Nat := 32

/-- READ_MAX: at most 8 bytes per READ (R8, R38). -/
abbrev Config.readMax : Nat := 8

/-- RESET_SEED (R8, R29, R91). -/
abbrev Config.resetSeed : BitVec 8 := 0x2A

/-- STATUS_EINVAL's default -1 (R9, R79, D8): what State.einval is in State.reset. The parameter itself is State.einval
(log 13). -/
abbrev Config.defaultEinval : BitVec Config.retW := -1

/-- WRITE's success status +1 (R46, D7). DESIGN CHOICE of the spec, unsafe (log 26). -/
abbrev Config.statusSuccess : BitVec Config.retW := 1

/-- DEV_SLOT, OPEN (R9, R88, D20): the slot of the external dispatch table. Safe: uninterpreted (log 14). -/
opaque Config.devSlot : Nat

/-- N_CALLERS less one. Safe: uninterpreted (log 11). -/
opaque Config.otherCallers : Nat

/-- N_CALLERS at reset: OPEN and at least 1 (R9, R16, D13). The parameter itself is State.nCallers (log 11). -/
def Config.nCallers : Nat := Config.otherCallers + 1

/-- The seed before INIT, which R26 calls undef: a free value. Safe: a read of it faults (log 7). -/
opaque Config.seedBeforeInit : BitVec 8

/-- The lock before INIT, which R26 calls undefined: a free value, `none` for Free (log 7). Safe. -/
opaque Config.lockBeforeInit : Option Nat

/-- Does copy number `k` of the run fail, where State lists no answer for it (R53)? A free value. Safe (log 4). -/
opaque Config.copyFails : Nat → Bool

/-- The status of copy number `k` where it fails (R53). A free value. Safe (log 4). -/
opaque Config.copyStatus : Nat → BitVec Config.retW

/-- The byte that copy number `k` fetches where it is a MemRead that succeeds (R53). A free value. Safe (log 4). -/
opaque Config.copyByte : Nat → BitVec 8

end Sys2Proof
end

