-- ==== Sys2Proof/Word.lean ====
section
/-! DEFINITION. The words of the block: byte, length, address, status, byte count, caller id (spec/00_scope.md R9 to R11,
spec/10_state.md R17, R21). -/

namespace Sys2Proof

/-- A byte: the seed, or a byte of a buffer (R10, R17). -/
abbrev Byte := BitVec 8

/-- The length operand, unsigned (R11, R71). -/
abbrev Len := BitVec Config.lenW

/-- A buffer address: the number that its ADDR_W bits stand for. ADDR_W is the machine's parameter State.addrW, so it is no
part of the type; sums are modulo 2^ADDR_W (R9, R11, R72; log 12). -/
abbrev Addr := Nat

/-- A status, signed two's complement (R11, R73). -/
abbrev Status := BitVec Config.retW

/-- The 4-bit count 0..8 of an operation's bytes (R21, R37). -/
abbrev Count := BitVec 4

/-- A caller id, 0 .. N_CALLERS-1 (R16). -/
abbrev CallerId := Nat

end Sys2Proof
end

