-- ==== Sys2Proof/Machine/Flags.lean ====
section
/-! DEFINITION. The block has no flags (spec/10_state.md R23): every outcome is the status that ends its operation. This
file computes the statuses (spec/30_encoding.md R73, spec/60_exceptions.md R78 to R81). -/

namespace Sys2Proof.Machine

/-- READ's status: its count, zero-extended (R37, R41, R73). -/
def statusOfCount (i : Count) : Status := i.setWidth Config.retW

/-- EINVAL, a WRITE whose length is not 1: the parameter STATUS_EINVAL (R79). -/
def statusOfBadLength (einval : Status) : Status := einval

/-- A WRITE that took its byte (R46). -/
def statusOfByteTaken : Status := Config.statusSuccess

/-- COPY_FAULT: the copy primitive's status, unchanged (R80). -/
def statusOfCopyFault (st : Status) : Status := st

end Sys2Proof.Machine
end

