-- ==== Sys2Proof/Machine/Lfsr.lean ====
section
/-! DEFINITION. The LFSR core: NEXT and its inverse (spec/40_lfsr_core.md R30, R36). -/

namespace Sys2Proof.Machine

/-- The feedback bit: the XOR of the taps 0, 2, 3 and 4 (R8, R30). -/
def lfsrFeedback (s : Byte) : Bool :=
  (s.getLsbD 0 ^^ s.getLsbD 2) ^^ (s.getLsbD 3 ^^ s.getLsbD 4)

/-- NEXT(s) = {fb, s[7:1]} (R30). -/
def lfsrNext (s : Byte) : Byte :=
  BitVec.ofBool (lfsrFeedback s) ++ s.extractLsb' 1 7

/-- PREV(t) = {t[6:0], t[7] ^ t[1] ^ t[2] ^ t[3]} (R36). The block never computes it. -/
def lfsrPrev (t : Byte) : Byte :=
  t.extractLsb' 0 7 ++ BitVec.ofBool ((t.getLsbD 7 ^^ t.getLsbD 1) ^^ (t.getLsbD 2 ^^ t.getLsbD 3))

end Sys2Proof.Machine
end

