-- ==== Sys2Proof/Machine/Operands.lean ====
section
/-! DEFINITION. Operand forms: the clamped length, the bits of an address, and the address of byte k (spec/30_encoding.md R71, R72). -/

namespace Sys2Proof.Machine

/-- min(len, READ_MAX), in 4 bits (R38, R71). -/
def clampedCount (len : Len) : Count := BitVec.ofNat 4 (min len.toNat Config.readMax)

/-- WRITE's length check: it compares len with 1 and uses nothing else of it (R44, R71). -/
def writeLenOk (len : Len) : Bool := len == 1

/-- The `w` = ADDR_W bits of an address that the request port takes (R67, R72; log 25). -/
def addrBits (w : Nat) (addr : Addr) : Addr := addr % 2 ^ w

/-- The address of byte k: (addr + k) mod 2^ADDR_W, with `w` = ADDR_W (R55, R72). -/
def byteAddr (w : Nat) (addr : Addr) (k : Count) : Addr := addrBits w (addr + k.toNat)

end Sys2Proof.Machine
end

