-- ==== Sys2Proof/Syntax.lean ====
section
/-! DEFINITION. Requests and operations as syntax (spec/30_encoding.md R67 to R76, spec/opcode_table.json). -/

namespace Sys2Proof

/-- The buffer space that a request names: `s = 0` kernel, `s = 1` user (R13, R51). -/
inductive Space where
  | kernel
  | user
  deriving DecidableEq, Repr

/-- The two operations a caller can request (R2, R68). -/
inductive Op where
  | read
  | write
  deriving DecidableEq, Repr

/-- A request as it stands on the request port, not yet decoded (R67, R76: the triple (cmd, len, addr)). Of addr the port
takes ADDR_W bits (log 25). -/
structure RawRequest where
  cmd : Byte
  len : Len
  addr : Addr
  deriving DecidableEq, Repr

/-- A decoded request: what `Waiting(req)` holds (R22, R68). -/
structure Request where
  op : Op
  space : Space
  len : Len
  addr : Addr
  deriving DecidableEq, Repr

/-- The operations of the block, one constructor per row of spec/opcode_table.json (R2). -/
inductive Instr where
  /-- READ space, max_length, destination address (R37). -/
  | read (space : Space) (len : Len) (addr : Addr)
  /-- WRITE space, length, source address (R43). -/
  | write (space : Space) (len : Len) (addr : Addr)
  /-- INIT, on the reset input (R74, R91). -/
  | init
  /-- NEXT of an 8-bit state, the combinational core (R30). -/
  | next (s : Byte)
  deriving DecidableEq, Repr

/-- The operation a request asks for. -/
def Request.toInstr (q : Request) : Instr :=
  match q.op with
  | .read => .read q.space q.len q.addr
  | .write => .write q.space q.len q.addr

end Sys2Proof
end

