-- ==== Sys2Proof/WellFormed.lean ====
section
/-! DEFINITION. Well-formedness: of a raw request (its cmd is not reserved, spec/30_encoding.md R68, R70) and of an
operation as a request (R69, R74: INIT and NEXT have no encoding). Every operand is admitted (R32, R71, R72), so there is
no check on operands. -/

namespace Sys2Proof

/-- cmd[1:0], the operation field (R68). -/
def RawRequest.op (r : RawRequest) : BitVec 2 := r.cmd.extractLsb' 0 2

/-- cmd[2], the space bit (R68). -/
def RawRequest.s (r : RawRequest) : Bool := r.cmd.getLsbD 2

/-- cmd[7:3], the reserved field (R68). -/
def RawRequest.res (r : RawRequest) : BitVec 5 := r.cmd.extractLsb' 3 5

/-- The op field is one of the two that R68 does not reserve. -/
def RawRequest.opDefined (r : RawRequest) : Bool := r.op == 0b01 || r.op == 0b10

/-- The reserved field is 0b00000, as it must be (R68). -/
def RawRequest.resClear (r : RawRequest) : Bool := r.res == 0

/-- The request is not reserved (R70). -/
def RawRequest.wellFormed (r : RawRequest) : Bool := r.opDefined && r.resClear

/-- The operation is one that a request can carry: READ or WRITE (R69, R74). -/
def Instr.isRequest : Instr → Bool
  | .read _ _ _ => true
  | .write _ _ _ => true
  | .init => false
  | .next _ => false

end Sys2Proof
end

