-- ==== Sys2Proof/Decode.lean ====
section
/-! DEFINITION. Decoding of requests and its inverse (spec/30_encoding.md R67 to R70). -/

namespace Sys2Proof

/-- Why a request is not decoded: its cmd is reserved (R70). -/
inductive DecodeError where
  | reserved (cmd : Byte)
  deriving DecidableEq, Repr

/-- cmd[2] as a buffer space (R13, R68). -/
def spaceOfBit (b : Bool) : Space := if b then .user else .kernel

/-- A buffer space as cmd[2] (R13, R68). -/
def bitOfSpace : Space → Bool
  | .kernel => false
  | .user => true

/-- The decoder, by R69's table alone: cmd & 0xFB is 0x01 for READ, 0x02 for WRITE, and any other value is reserved. -/
def decodeRequest (r : RawRequest) : Except DecodeError Request :=
  if r.cmd &&& 0xFB = 0x01 then
    .ok ⟨.read, spaceOfBit r.s, r.len, r.addr⟩
  else if r.cmd &&& 0xFB = 0x02 then
    .ok ⟨.write, spaceOfBit r.s, r.len, r.addr⟩
  else
    .error (.reserved r.cmd)

/-- The operation that a raw request stands for, or the reason it stands for none. -/
def decode (r : RawRequest) : Except DecodeError Instr :=
  match decodeRequest r with
  | .ok q => .ok q.toInstr
  | .error e => .error e

/-- cmd of a request: res = 0b00000, then s, then the 2-bit operation code (R68). -/
def cmdOf (op : BitVec 2) (space : Space) : Byte :=
  (0b00000 : BitVec 5) ++ BitVec.ofBool (bitOfSpace space) ++ op

/-- The request that carries an operation; INIT and NEXT have no encoding (R69, R74). -/
def encode : Instr → Option RawRequest
  | .read space len addr => some ⟨cmdOf 0b01 space, len, addr⟩
  | .write space len addr => some ⟨cmdOf 0b10 space, len, addr⟩
  | .init => none
  | .next _ => none

/-- A request's bits as one number: cmd in bits 7..0 as spec/opcode_table.json numbers them, then len in bits 39..8,
then addr. Bits at or above `nbits` are 0. DESIGN CHOICE, safe: R67 presents the three fields together and orders no
bits between them (log 16). -/
def rawOfWord (nbits w : Nat) : RawRequest :=
  let v := w % 2 ^ nbits
  { cmd := BitVec.ofNat 8 v
    len := BitVec.ofNat Config.lenW (v / 2 ^ 8)
    addr := v / 2 ^ (8 + Config.lenW) }

/-- What the decoder reads from a request whose bits are `w`. -/
def decodeTableWord (nbits w : Nat) : Option Instr :=
  match decode (rawOfWord nbits w) with
  | .ok i => some i
  | .error _ => none

end Sys2Proof
end

