-- ==== Sys2Proof/Machine/State.lean ====
section
/-! DEFINITION. The state of the block as plain data (spec/10_state.md R16 to R29), the reasons a step can stop, the state
before INIT and the state after reset. -/

namespace Sys2Proof.Machine

/-- The bytes of one buffer space that the copy primitive has stored: (address, byte) pairs, addresses strictly rising.
An unlisted address holds no byte that the block stored (R51; log 6). -/
abbrev Memory := List Host.Cell

/-- The lock: Free, or Held(c) (R19). -/
inductive Lock where
  | free
  | held (c : CallerId)
  deriving DecidableEq, Repr

/-- The in-flight operation record (R21). -/
structure Txn where
  owner : CallerId
  op : Op
  space : Space
  addr : Addr
  /-- READ: the clamped count; WRITE: 1. -/
  n : Count
  /-- READ: the bytes copied so far; WRITE: 0. -/
  i : Count
  deriving DecidableEq, Repr

/-- A caller's request state cs[c] (R22). -/
inductive CallerState where
  | idle
  | waiting (q : Request)
  | active
  | done (st : Status)
  deriving DecidableEq, Repr

/-- The copy primitive's answer to a MemWrite (R12, R52). -/
inductive PutAnswer where
  | ok
  | fail (st : Status)
  deriving DecidableEq, Repr

/-- The copy primitive's answer to a MemRead (R12, R52). -/
inductive GetAnswer where
  | ok (b : Byte)
  | fail (st : Status)
  deriving DecidableEq, Repr

/-- A copy as R49 records it: the call and its answer. -/
inductive CopyRecord where
  | memWrite (space : Space) (addr : Addr) (v : Byte) (ans : PutAnswer)
  | memRead (space : Space) (addr : Addr) (ans : GetAnswer)
  deriving DecidableEq, Repr

/-- A move of one agent: the inputs of the machine. All but `init` and `request` are the atomic steps of R49; `request`
is a READ or WRITE whose steps of R49 follow one another without a step of another caller between them (log 1). -/
inductive Move where
  /-- the host applies the reset input (R74, R91) -/
  | init
  /-- caller `c` presents `r`, and the operation runs as far as it can -/
  | request (c : CallerId) (r : RawRequest)
  /-- ISSUE(c, req) alone -/
  | issue (c : CallerId) (r : RawRequest)
  | acquire (c : CallerId)
  | readByte (c : CallerId)
  | readEnd (c : CallerId)
  | writeCopy (c : CallerId)
  | take (c : CallerId)
  deriving DecidableEq, Repr

/-- Why the machine stops. Each stops a run where the spec gives no effect, so each is safe. -/
inductive Fault where
  /-- FAULT_UNINIT (R89): raised by READ and WRITE while initialised = false. Safe. -/
  | uninit
  /-- A read of the seed or the lock, both undefined before INIT (R26, R29, I2): raised by ACQUIRE and by a copy step,
  only in states no run reaches. Safe. -/
  | undefinedBeforeInit
  /-- A second INIT: the host has no such move, stuck (R94, I13): raised by INIT while initialised = true. Safe. -/
  | secondInit
  /-- A request of a caller with one outstanding: no such move, stuck (R19, R22, R100, I15): raised by READ and WRITE.
  Safe. -/
  | callerBusy
  /-- A request of a caller whose id is not below N_CALLERS: there is no such agent (R16): raised by READ and WRITE.
  Safe. -/
  | noSuchCaller
  deriving DecidableEq, Repr

/-- Why the machine gives a request no meaning. -/
inductive Refusal where
  /-- An instruction without a meaning. No arm of exec answers so. Safe. -/
  | notModelled (mnemonic : String)
  /-- REFUSED, a reserved encoding (R70): raised by step when it decodes a request. Safe. -/
  | reservedEncoding (cmd : Byte)
  deriving DecidableEq, Repr

end Sys2Proof.Machine

namespace Sys2Proof.Machine

/-- The machine's state. First what the spec names, then the model's own fields (INVENTORY.md). -/
@[ext]
structure State where
  /-- the seed register (R17) -/
  seed : Byte
  /-- the lock (R19) -/
  lock : Lock
  /-- the in-flight operation, if any (R21) -/
  txn : Option Txn
  /-- cs[c]: the callers that are not Idle, ids strictly rising (R22) -/
  callers : List (CallerId × CallerState)
  /-- has INIT been applied (R26) -/
  initialised : Bool
  /-- the dispatch slot at which READ and WRITE are registered, if any (R29, R88) -/
  registration : Option Nat
  /-- N_CALLERS, a parameter no step changes (R9, R16; log 11) -/
  nCallers : Nat
  /-- ADDR_W, a parameter no step changes: the bits of a buffer address (R9, R51, R67; log 12) -/
  addrW : Nat
  /-- STATUS_EINVAL, a parameter no step changes: the status of a WRITE of a bad length (R9, R79; log 13) -/
  einval : Status
  /-- space 0, the trusted kernel buffer (R51) -/
  kernel : Memory
  /-- space 1, the untrusted user buffer (R51) -/
  user : Memory
  /-- the copies made, oldest first (R49) -/
  copies : List CopyRecord
  /-- the statuses taken, oldest first (R49 TAKE) -/
  received : List (CallerId × Status)
  /-- the model's own: evaluations of NEXT as an operation, (input, result) (log 15) -/
  coreLog : List (Byte × Byte)
  /-- the model's own: the moves still to come (log 2) -/
  schedule : List Move
  /-- the model's own: the answers to the MemWrites still to come, as far as fixed (R53; log 4) -/
  puts : List PutAnswer
  /-- the model's own: the answers to the MemReads still to come, as far as fixed (R53; log 4) -/
  gets : List GetAnswer
  /-- the model's own: the copies made so far, the argument of the free answers (log 4) -/
  draws : Nat
  /-- the model's own: the caller whose request is on the port, R37's c (log 18) -/
  requester : CallerId
  deriving DecidableEq, Repr

/-- The lock before INIT: undefined, a free value (R26; log 7). -/
def lockBeforeInit : Lock :=
  match Config.lockBeforeInit with
  | none => .free
  | some c => .held c

/-- The machine before INIT: the first column of R29. -/
def State.powerUp : State :=
  { seed := Config.seedBeforeInit
    lock := lockBeforeInit
    txn := none
    callers := []
    initialised := false
    registration := none
    nCallers := Config.nCallers
    addrW := Config.defaultAddrW
    einval := Config.defaultEinval
    kernel := []
    user := []
    copies := []
    received := []
    coreLog := []
    schedule := []
    puts := []
    gets := []
    draws := 0
    requester := 0 }

/-- The machine right after reset, that is after INIT: the second column of R29 (log 7, log 23). -/
def State.reset : State :=
  { seed := Config.resetSeed
    lock := .free
    txn := none
    callers := []
    initialised := true
    registration := some Config.devSlot
    nCallers := Config.nCallers
    addrW := Config.defaultAddrW
    einval := Config.defaultEinval
    kernel := []
    user := []
    copies := []
    received := []
    coreLog := []
    schedule := []
    puts := []
    gets := []
    draws := 0
    requester := 0 }

end Sys2Proof.Machine
end

