-- ==== Sys2Proof/Machine/Ops.lean ====
section
/-! DEFINITION. The operations that the meanings share: keyed lists, buffers, the seed, the lock, the copy primitive, and
the atomic steps of spec/41_device_adapter.md R49. The block raises no exceptions and returns from none (R77, R84, R85):
what ends an operation is FINISH, here `State.finish`. -/

namespace Sys2Proof.Machine

/-! Keyed lists, keys strictly rising: the one form of the buffers and of the caller table. -/

/-- The keys are strictly rising. -/
abbrev Rising {α : Type} (l : List (Nat × α)) : Prop := l.Pairwise (fun a b => a.1 < b.1)

/-- The value listed at a key. -/
def keyedGet {α : Type} (k : Nat) : List (Nat × α) → Option α
  | [] => none
  | e :: rest => if e.1 = k then some e.2 else keyedGet k rest

/-- The list with a value at a key. -/
def keyedPut {α : Type} (k : Nat) (v : α) : List (Nat × α) → List (Nat × α)
  | [] => [(k, v)]
  | e :: rest =>
    if k < e.1 then (k, v) :: e :: rest
    else if e.1 = k then (k, v) :: rest
    else e :: keyedPut k v rest

/-- The list without a key. -/
def keyedDrop {α : Type} (k : Nat) : List (Nat × α) → List (Nat × α)
  | [] => []
  | e :: rest => if e.1 = k then rest else e :: keyedDrop k rest

/-! Buffers. -/

/-- A buffer's canonical form: addresses strictly rising and below 2^ADDR_W, with `w` = ADDR_W. An unlisted address holds
nothing, so no entry can repeat it. -/
abbrev Memory.wf (w : Nat) (m : Memory) : Prop := Rising m ∧ ∀ e ∈ m, e.1 < 2 ^ w

/-- The buffer of a space (R51). -/
def State.buf (s : State) : Space → Memory
  | .kernel => s.kernel
  | .user => s.user

/-- buf[a]: the byte that the copy primitive stored last at an address, if it stored one (R52). -/
def State.bufByte (s : State) (space : Space) (a : Addr) : Option Byte := keyedGet a (s.buf space)

/-- A buffer with one byte stored (R52). -/
def Memory.store (m : Memory) (a : Addr) (v : Byte) : Memory := keyedPut a v m

/-! The seed and the caller table. -/

/-- seed <- v (R12). -/
def State.setSeed (s : State) (v : Byte) : State := { s with seed := v }

/-- cs[c]; a caller that is not listed is Idle (R22). -/
def State.caller (s : State) (c : CallerId) : CallerState := (keyedGet c s.callers).getD .idle

/-- The caller table with cs[c] set. -/
def callersSet (c : CallerId) (v : CallerState) (l : List (CallerId × CallerState)) : List (CallerId × CallerState) :=
  if v = .idle then keyedDrop c l else keyedPut c v l

/-- cs[c] <- v (R22). -/
def State.setCaller (s : State) (c : CallerId) (v : CallerState) : State :=
  { s with callers := callersSet c v s.callers }

/-- txn <- t (R21). -/
def State.setTxn (s : State) (t : Option Txn) : State := { s with txn := t }

/-- Caller c receives the status st (R49 TAKE). -/
def State.receive (s : State) (c : CallerId) (st : Status) : State := { s with received := s.received ++ [(c, st)] }

/-- The state with other moves to come. -/
def State.setSchedule (s : State) (ms : List Move) : State := { s with schedule := ms }

/-- The state with a request of caller c on the port. -/
def State.setRequester (s : State) (c : CallerId) : State := { s with requester := c }

/-- A request as the port takes it: ADDR_W bits of its address (R67; log 25). -/
def State.onPort (s : State) (q : Request) : Request := { q with addr := addrBits s.addrW q.addr }

/-! The copy primitive (R52, R53). Its answer is an input: the head of `puts` or `gets` where the environment has fixed
one, else a free value. Every copy is answered (R54, R99). -/

/-- The answer to MemWrite number `k` where none is listed. -/
def freePutAnswer (k : Nat) : PutAnswer :=
  if Config.copyFails k then .fail (Config.copyStatus k) else .ok

/-- The answer to MemRead number `k` where none is listed. -/
def freeGetAnswer (k : Nat) : GetAnswer :=
  if Config.copyFails k then .fail (Config.copyStatus k) else .ok (Config.copyByte k)

/-- The answer that the MemWrite after `j` more copies will get. -/
def State.putAnswerAt (s : State) (j : Nat) : PutAnswer := (s.puts[j]?).getD (freePutAnswer (s.draws + j))

/-- The answer that the next MemWrite will get. -/
def State.putAnswer (s : State) : PutAnswer := s.putAnswerAt 0

/-- The answer that the next MemRead will get. -/
def State.getAnswer (s : State) : GetAnswer := (s.gets[0]?).getD (freeGetAnswer s.draws)

/-- A buffer after a MemWrite of `v` to it that was answered `ans`: a Fail transfers nothing (R52). -/
def Memory.afterPut (m : Memory) (a : Addr) (v : Byte) : PutAnswer → Memory
  | .ok => m.store a v
  | .fail _ => m

/-- MemWrite(space, a, 1, v): the state once the answer `s.putAnswer` has been given (R52, R53). -/
def State.memWrite (s : State) (space : Space) (a : Addr) (v : Byte) : State :=
  { s with
    puts := s.puts.tail
    draws := s.draws + 1
    copies := s.copies ++ [.memWrite space a v s.putAnswer]
    kernel := if space = .kernel then s.kernel.afterPut a v s.putAnswer else s.kernel
    user := if space = .user then s.user.afterPut a v s.putAnswer else s.user }

/-- MemRead(space, a, 1): the state once the answer `s.getAnswer` has been given (R52, R53). -/
def State.memRead (s : State) (space : Space) (a : Addr) : State :=
  { s with
    gets := s.gets.tail
    draws := s.draws + 1
    copies := s.copies ++ [.memRead space a s.getAnswer] }

/-! Taking and freeing the lock. -/

/-- The record of an operation just begun (R49 ACQUIRE). -/
def txnOf (c : CallerId) (q : Request) : Txn :=
  { owner := c
    op := q.op
    space := q.space
    addr := q.addr
    n := if q.op = .read then clampedCount q.len else 1
    i := 0 }

/-- The effect of ACQUIRE: lock <- Held(c), txn <- the operation, cs[c] <- Active (R19, R49). -/
def State.acquire (s : State) (c : CallerId) (q : Request) : State :=
  { s with lock := .held c, txn := some (txnOf c q), callers := callersSet c .active s.callers }

/-- FINISH(c, st): lock <- Free, txn <- None, cs[c] <- Done(st) (R49). -/
def State.finish (s : State) (c : CallerId) (st : Status) : State :=
  { s with lock := .free, txn := none, callers := callersSet c (.done st) s.callers }

/-- The body of a READ for one byte: seed <- NEXT(seed), then MemWrite of the new seed (R37, R39). The answer is the
`putAnswer` of the state before it. -/
def State.copyOut (s : State) (space : Space) (a : Addr) : State :=
  (s.setSeed (lfsrNext s.seed)).memWrite space a (lfsrNext s.seed)

/-- The end of a WRITE whose MemRead was answered `ans`: seed <- b and +1, or the status of the failure with the seed
unchanged (R43, R45, R47). -/
def State.finishWrite (s : State) (c : CallerId) : GetAnswer → State
  | .ok b => (s.setSeed b).finish c statusOfByteTaken
  | .fail st => s.finish c (statusOfCopyFault st)

/-! The steps of R49. A step that is not enabled leaves the state as it is: that caller has no step (R19; log 3). -/

/-- Why a READ or WRITE of caller `c` is not admitted: FAULT_UNINIT first (R82, R89), then a caller that does not exist
(R16), then one with a request outstanding (R22). -/
def State.admissionFault (s : State) (c : CallerId) : Option Fault :=
  if s.initialised = false then some .uninit
  else if s.nCallers ≤ c then some .noSuchCaller
  else if s.caller c ≠ .idle then some .callerBusy
  else none

/-- cs[c] after ISSUE: a WRITE of any length but 1 is done at once, anything else waits for the lock (R44, R49). -/
def issuedState (einval : Status) (q : Request) : CallerState :=
  if q.op = .write ∧ writeLenOk q.len = false then .done (statusOfBadLength einval) else .waiting q

/-- ISSUE(c, req) of a decoded request (R49). -/
def State.issue (s : State) (c : CallerId) (q : Request) : Host.Outcome State Fault Refusal :=
  match s.admissionFault c with
  | some f => .fault f
  | none => .next (s.setCaller c (issuedState s.einval q))

/-- ACQUIRE(c) (R49): enabled when cs[c] = Waiting(req) and lock = Free. -/
def State.stepAcquire (s : State) (c : CallerId) : Host.Outcome State Fault Refusal :=
  match s.caller c with
  | .waiting q =>
    if s.initialised = false then .fault .undefinedBeforeInit
    else if s.lock = .free then .next (s.acquire c q)
    else .next s
  | _ => .next s

/-- READ_BYTE of the operation `t` (R49). -/
def State.readByteOf (s : State) (t : Txn) : State :=
  match s.putAnswer with
  | .ok => (s.copyOut t.space (byteAddr s.addrW t.addr t.i)).setTxn (some { t with i := t.i + 1 })
  | .fail _ => (s.copyOut t.space (byteAddr s.addrW t.addr t.i)).finish t.owner (statusOfCount t.i)

/-- READ_BYTE(c) (R49): enabled when txn.owner = c, txn.op = READ and txn.i < txn.n. -/
def State.stepReadByte (s : State) (c : CallerId) : Host.Outcome State Fault Refusal :=
  match s.txn with
  | some t =>
    if t.owner = c ∧ t.op = .read ∧ t.i < t.n then
      if s.initialised = false then .fault .undefinedBeforeInit else .next (s.readByteOf t)
    else .next s
  | none => .next s

/-- READ_END(c) (R49): enabled when txn.owner = c, txn.op = READ and txn.i = txn.n. -/
def State.stepReadEnd (s : State) (c : CallerId) : Host.Outcome State Fault Refusal :=
  match s.txn with
  | some t =>
    if t.owner = c ∧ t.op = .read ∧ t.i = t.n then .next (s.finish c (statusOfCount t.n)) else .next s
  | none => .next s

/-- WRITE_COPY(c) (R49): enabled when txn.owner = c and txn.op = WRITE. -/
def State.stepWriteCopy (s : State) (c : CallerId) : Host.Outcome State Fault Refusal :=
  match s.txn with
  | some t =>
    if t.owner = c ∧ t.op = .write then
      if s.initialised = false then .fault .undefinedBeforeInit
      else .next ((s.memRead t.space t.addr).finishWrite c s.getAnswer)
    else .next s
  | none => .next s

/-- TAKE(c) (R49): enabled when cs[c] = Done(st); cs[c] <- Idle and the caller receives st. -/
def State.stepTake (s : State) (c : CallerId) : Host.Outcome State Fault Refusal :=
  match s.caller c with
  | .done st => .next ((s.setCaller c .idle).receive c st)
  | _ => .next s

end Sys2Proof.Machine
end

