-- ==== Sys2Proof/Machine/Device.lean ====
section
/-! DEFINITION. The meanings of READ and WRITE (spec/41_device_adapter.md R37, R43): the steps of one caller from ISSUE
to its status, one after another. Where another caller holds the lock the operation is issued and waits (R19). -/

namespace Sys2Proof.Machine

/-- The loop of R37 from index `i`, with the given number of bytes left: the count copied, and the state after. -/
def readLoop (space : Space) (addr : Addr) : Nat → Count → State → Count × State
  | 0, i, s => (i, s)
  | k + 1, i, s =>
    match s.putAnswer with
    | .ok => readLoop space addr k (i + 1) (s.copyOut space (byteAddr s.addrW addr i))
    | .fail _ => (i, s.copyOut space (byteAddr s.addrW addr i))

/-- READ once the lock is taken: the loop, then release and respond with the count (R37). -/
def readLocked (c : CallerId) (space : Space) (len : Len) (addr : Addr) (s : State) : State :=
  let r := readLoop space addr (clampedCount len).toNat 0 s
  r.2.finish c (statusOfCount r.1)

/-- READ (R37) of the caller on the request port. -/
def execRead (space : Space) (len : Len) (addr : Addr) (s : State) : Host.Outcome State Fault Refusal :=
  let q := s.onPort ⟨.read, space, len, addr⟩
  match s.issue s.requester q with
  | .next s1 =>
    if s1.lock = .free then .next (readLocked s.requester space len q.addr (s1.acquire s.requester q)) else .next s1
  | .fault f => .fault f
  | .refused r => .refused r

/-- WRITE of length 1 once the lock is taken: one MemRead, then reseed or not, release and respond (R43). -/
def writeLocked (c : CallerId) (space : Space) (addr : Addr) (s : State) : State :=
  (s.memRead space addr).finishWrite c s.getAnswer

/-- WRITE (R43) of the caller on the request port. With a length other than 1 it takes no lock (R44). -/
def execWrite (space : Space) (len : Len) (addr : Addr) (s : State) : Host.Outcome State Fault Refusal :=
  let q := s.onPort ⟨.write, space, len, addr⟩
  match s.issue s.requester q with
  | .next s1 =>
    if writeLenOk len = true ∧ s1.lock = .free then
      .next (writeLocked s.requester space q.addr (s1.acquire s.requester q))
    else .next s1
  | .fault f => .fault f
  | .refused r => .refused r

end Sys2Proof.Machine
end

