-- ==== Sys2Proof/Machine/LfsrCore.lean ====
section
/-! DEFINITION. The meaning of NEXT as an operation of its own (spec/40_lfsr_core.md R30, R32). -/

namespace Sys2Proof.Machine

/-- NEXT (R30): the combinational core gives NEXT(v) for the input v. It is total and has no side effects (R32), so
nothing the spec names changes; the model records input and result (log 15). -/
def execNext (v : Byte) (s : State) : Host.Outcome State Fault Refusal :=
  .next { s with coreLog := s.coreLog ++ [(v, lfsrNext v)] }

end Sys2Proof.Machine
end

