-- ==== Sys2Proof/Machine/Reset.lean ====
section
/-! DEFINITION. The meaning of INIT (spec/70_reset_and_hazards.md R91 to R94). -/

namespace Sys2Proof.Machine

/-- INIT (R91), one atomic step (R92). It is applied once: a second INIT is no move of the host (R94, I13; log 8). -/
def execInit (s : State) : Host.Outcome State Fault Refusal :=
  if s.initialised then .fault .secondInit
  else
    .next { s with
      lock := .free
      registration := some Config.devSlot
      seed := Config.resetSeed
      txn := none
      callers := []
      initialised := true }

end Sys2Proof.Machine
end

