-- ==== Sys2Proof/Machine/Dispatch.lean ====
section
/-! DEFINITION. One arm per row of spec/opcode_table.json. -/

namespace Sys2Proof.Machine

def exec (i : Instr) (s : State) : Host.Outcome State Fault Refusal :=
  match i with
  | .read space len addr => Sys2Proof.Machine.execRead space len addr s
  | .write space len addr => Sys2Proof.Machine.execWrite space len addr s
  | .init => Sys2Proof.Machine.execInit s
  | .next v => Sys2Proof.Machine.execNext v s

end Sys2Proof.Machine
end

