-- ==== Sys2Proof/Machine/Fetch.lean ====
section
/-! DEFINITION. Taking the next move of the schedule (spec/10_state.md R16, spec/41_device_adapter.md R49; log 2). -/

namespace Sys2Proof.Machine

/-- What the next move comes to: an operation to execute in a state, or an outcome already. -/
inductive Fetched where
  | run (i : Instr) (s : State)
  | answer (o : Host.Outcome State Fault Refusal)

/-- The refusal of a request that does not decode (R70). -/
def refusalOf : DecodeError → Refusal
  | .reserved cmd => .reservedEncoding cmd

/-- A whole request of caller `c`: decoded first (R82), then executed with `c` on the request port. -/
def fetchRequest (c : CallerId) (r : RawRequest) (s : State) : Fetched :=
  match decode r with
  | .ok i => .run i (s.setRequester c)
  | .error e => .answer (.refused (refusalOf e))

/-- ISSUE of caller `c` alone: decoded first (R49, R82), with the address bits that the port takes. -/
def fetchIssue (c : CallerId) (r : RawRequest) (s : State) : Fetched :=
  match decodeRequest r with
  | .ok q => .answer (s.issue c (s.onPort q))
  | .error e => .answer (.refused (refusalOf e))

/-- One move, in the state from whose schedule it has been taken. -/
def fetchMove (m : Move) (s : State) : Fetched :=
  match m with
  | .init => .run .init s
  | .request c r => fetchRequest c r s
  | .issue c r => fetchIssue c r s
  | .acquire c => .answer (s.stepAcquire c)
  | .readByte c => .answer (s.stepReadByte c)
  | .readEnd c => .answer (s.stepReadEnd c)
  | .writeCopy c => .answer (s.stepWriteCopy c)
  | .take c => .answer (s.stepTake c)

/-- The next move. With none left no agent acts, and the block, which acts only on requests, stays as it is. -/
def fetch (s : State) : Fetched :=
  match s.schedule with
  | [] => .answer (.next s)
  | m :: rest => fetchMove m (s.setSchedule rest)

/-- The state with a request of the caller on the port as its next move (log 17). -/
def placeRequest (r : RawRequest) (s : State) : State :=
  s.setSchedule (.request s.requester r :: s.schedule)

end Sys2Proof.Machine
end

