-- ==== Sys2Proof/Machine/Step.lean ====
section
/-! DEFINITION. The step: take the next move, and execute the operation it carries. -/

namespace Sys2Proof.Machine

/-- One step of the machine. -/
def step (s : State) : Host.Outcome State Fault Refusal :=
  match fetch s with
  | .run i s' => exec i s'
  | .answer o => o

/-- The state whose next step runs the request with bits `w` (log 16, log 17). -/
def State.withFetchWord (s : State) (nbits w : Nat) : State := placeRequest (rawOfWord nbits w) s

end Sys2Proof.Machine
end

