-- ==== Sys2Proof/Safety.lean ====
section
/-! DEFINITION. The terms claims are stated in: the invariant of the machine, when a request is admitted, what a step
answers, who moves, and the part of the state that the lock protects. -/

namespace Sys2Proof.Machine

/-- The lock and the in-flight record agree: txn is not None exactly when lock = Held(txn.owner) (R21). -/
def lockMatches : Lock → Option Txn → Prop
  | .free, none => True
  | .held c, some t => t.owner = c
  | .free, some _ => False
  | .held _, none => False

/-- The record's counts: i ≤ n ≤ 8, and n = 1, i = 0 for a WRITE (R21). -/
def txnOk (t : Txn) : Prop := t.n ≤ 8 ∧ t.i ≤ t.n ∧ (t.op = .write → t.n = 1 ∧ t.i = 0)

/-- The machine's invariant. Its first clauses are R9's conditions on the parameters. -/
structure State.Inv (s : State) : Prop where
  /-- N_CALLERS is at least 1 (R9) -/
  someCaller : 0 < s.nCallers
  /-- ADDR_W is at least 4 (R9) -/
  addrWide : 4 ≤ s.addrW
  /-- STATUS_EINVAL is negative (R9, R79) -/
  einvalNegative : s.einval.toInt < 0
  /-- the buffers keep their canonical form -/
  kernelWf : Memory.wf s.addrW s.kernel
  userWf : Memory.wf s.addrW s.user
  /-- the caller table keeps its canonical form, and lists only callers there are (R16, R22) -/
  callersRising : Rising s.callers
  callersListed : ∀ e ∈ s.callers, e.1 < s.nCallers ∧ e.2 ≠ .idle
  /-- lock and record agree once INIT has been applied (R21, R26) -/
  lockTxn : s.initialised = true → lockMatches s.lock s.txn
  /-- a caller is Active exactly when it owns txn (R22) -/
  activeOwns : ∀ c, s.caller c = .active ↔ ∃ t, s.txn = some t ∧ t.owner = c
  /-- the record's counts are in range (R21) -/
  txnInRange : ∀ t, s.txn = some t → txnOk t
  /-- the addresses that the record and the waiting requests hold are ADDR_W bits (R21, R67) -/
  txnAddr : ∀ t, s.txn = some t → t.addr < 2 ^ s.addrW
  waitingAddr : ∀ c q, s.caller c = .waiting q → q.addr < 2 ^ s.addrW
  /-- only a WRITE of length 1 waits for the lock (R28, R44) -/
  waitingLen : ∀ c q, s.caller c = .waiting q → q.op = .write → q.len = 1
  /-- before INIT nothing is under way (R29) -/
  beforeInit : s.initialised = false → s.txn = none ∧ s.callers = [] ∧ s.registration = none
  /-- after INIT the handlers are registered (R29, R88) -/
  registered : s.initialised = true → s.registration = some Config.devSlot

/-- The request on the port is admitted: INIT has been applied and the requester is a caller that is Idle (R22, R89). -/
def State.Ready (s : State) : Prop :=
  s.initialised = true ∧ s.requester < s.nCallers ∧ s.caller s.requester = .idle

/-- The next state of an outcome, if it is one. -/
def nextOf : Host.Outcome State Fault Refusal → Option State
  | .next s => some s
  | .fault _ => none
  | .refused _ => none

/-- The caller that makes a move; the host makes INIT (R16). -/
def moveCaller : Move → Option CallerId
  | .init => none
  | .request c _ => some c
  | .issue c _ => some c
  | .acquire c => some c
  | .readByte c => some c
  | .readEnd c => some c
  | .writeCopy c => some c
  | .take c => some c

/-- The moves of R49 that the holder of the lock makes inside its critical section. -/
def criticalMove (c : CallerId) (m : Move) : Prop := m = .readByte c ∨ m = .readEnd c ∨ m = .writeCopy c

/-- Running the moves `ms` from `s`, and no others. -/
def runMoves (ms : List Move) (s : State) : Host.Outcome State Fault Refusal :=
  Host.Core.run Sys2Proof.core ms.length (s.setSchedule ms)

/-- What the lock protects, together with the copy primitive's side of it: the seed, the lock, the record, the buffers,
the copies made and the answers to come (R18, R48). -/
structure Critical where
  seed : Byte
  lock : Lock
  txn : Option Txn
  kernel : Memory
  user : Memory
  copies : List CopyRecord
  puts : List PutAnswer
  gets : List GetAnswer
  draws : Nat
  deriving DecidableEq, Repr

/-- The protected part of a state. -/
def State.critical (s : State) : Critical :=
  { seed := s.seed
    lock := s.lock
    txn := s.txn
    kernel := s.kernel
    user := s.user
    copies := s.copies
    puts := s.puts
    gets := s.gets
    draws := s.draws }

/-- A copy that was answered Ok. -/
def copyOk : CopyRecord → Bool
  | .memWrite _ _ _ .ok => true
  | .memWrite _ _ _ (.fail _) => false
  | .memRead _ _ (.ok _) => true
  | .memRead _ _ (.fail _) => false

/-- A buffer of the space after one recorded copy: only a MemWrite to that space that was answered Ok stores a byte
(R52). -/
def replayOne (space : Space) (m : Memory) : CopyRecord → Memory
  | .memWrite sp a v .ok => if sp = space then m.store a v else m
  | .memWrite _ _ _ (.fail _) => m
  | .memRead _ _ _ => m

/-- A buffer of the space as the recorded copies leave it, from nothing stored. -/
def replay (space : Space) (copies : List CopyRecord) : Memory := copies.foldl (replayOne space) []

end Sys2Proof.Machine
end

