-- ==== Sys2Proof/Certificates/Slice0/Obligations.lean ====
section
/-! DEFINITION. The statements for the provers. -/

open Sys2Proof Sys2Proof.Machine

/-! ## Requests: decoding, encoding, and the step that runs a request -/

/-- R49, R69, R74: where the next move is a request of caller `c` that decodes to an operation, the step executes exactly
that operation, in the state with the move taken off the schedule and `c` on the request port (the model's own fields);
and where it is the host's reset input, the step executes INIT. -/
def Obligations.StepRunsTheDecodedRequest : Prop :=
  (∀ (s : State) (c : CallerId) (r : RawRequest) (i : Instr) (rest : List Move),
    s.schedule = .request c r :: rest → decode r = .ok i →
    step s = exec i ((s.setSchedule rest).setRequester c)) ∧
  ∀ (s : State) (rest : List Move), s.schedule = .init :: rest → step s = exec .init (s.setSchedule rest)

/-- 95_test_vectors.md V2: the cmd values listed there decode as listed. -/
def Obligations.ListedCommandsDecodeAsListed : Prop :=
  (∀ len addr,
    decode ⟨0x01, len, addr⟩ = .ok (.read .kernel len addr) ∧
    decode ⟨0x05, len, addr⟩ = .ok (.read .user len addr) ∧
    decode ⟨0x02, len, addr⟩ = .ok (.write .kernel len addr) ∧
    decode ⟨0x06, len, addr⟩ = .ok (.write .user len addr)) ∧
  ∀ cmd ∈ ([0x00, 0x03, 0x04, 0x07, 0x09, 0x0A, 0x81, 0x42, 0xFF, 0xFD] : List Byte), ∀ len addr,
    decode ⟨cmd, len, addr⟩ = .error (.reserved cmd)

/-- R68: cmd[1:0] is the operation, cmd[2] the space, cmd[7:3] must be 0b00000, for every cmd. -/
def Obligations.CommandFieldsSelectTheOperation : Prop :=
  ∀ r : RawRequest,
    (r.cmd.extractLsb' 3 5 = 0 → r.cmd.extractLsb' 0 2 = 0b01 →
      decode r = .ok (.read (if r.cmd.getLsbD 2 then .user else .kernel) r.len r.addr)) ∧
    (r.cmd.extractLsb' 3 5 = 0 → r.cmd.extractLsb' 0 2 = 0b10 →
      decode r = .ok (.write (if r.cmd.getLsbD 2 then .user else .kernel) r.len r.addr)) ∧
    (r.cmd.extractLsb' 3 5 ≠ 0 ∨ r.cmd.extractLsb' 0 2 = 0b00 ∨ r.cmd.extractLsb' 0 2 = 0b11 →
      decode r = .error (.reserved r.cmd))

/-- R70: a request whose cmd has op = 0b00, op = 0b11 or res ≠ 0 is refused in every state, before INIT too; the refusal
ends the step, so no state is left that could differ. Both forms of a request, whole and ISSUE alone. -/
def Obligations.ReservedRequestsAreRefused : Prop :=
  ∀ (s : State) (c : CallerId) (r : RawRequest) (rest : List Move),
    s.schedule = .request c r :: rest ∨ s.schedule = .issue c r :: rest →
    (r.cmd.extractLsb' 0 2 = 0b00 ∨ r.cmd.extractLsb' 0 2 = 0b11 ∨ r.cmd.extractLsb' 3 5 ≠ 0) →
    step s = .refused (.reservedEncoding r.cmd)

/-- Decode and encode agree: what is encoded decodes to itself with every operand at every value, and what decodes is
encoded as it stood, so no bit of a request is dropped. READ and WRITE are encoded, INIT and NEXT are not. -/
def Obligations.EncodeAndDecodeAgree : Prop :=
  (∀ i r, encode i = some r ↔ decode r = .ok i) ∧
  (∀ sp len addr, (encode (.read sp len addr)).isSome ∧ (encode (.write sp len addr)).isSome) ∧
  encode .init = none ∧ ∀ v, encode (.next v) = none

/-- R74: no cmd value selects INIT, and none selects NEXT (R30). -/
def Obligations.NoRequestSelectsInitOrNext : Prop :=
  ∀ (r : RawRequest) (i : Instr), decode r = .ok i → i ≠ .init ∧ ∀ v, i ≠ .next v

/-! ## NEXT -/

/-- 40_lfsr_core.md R30 and R32, with the MODEL'S CHOICE of log 15 that the result is recorded in State.coreLog, which no
rule gives. NEXT completes in every state and for every input. It records the input with a result whose bit 7 is the
feedback of bits 0, 2, 3 and 4 and whose other bits are the input's, shifted down; it has no side effect: all else of the
state is as before (frame). It has no encoding, and the corner cases and the example of R30 hold. -/
def Obligations.NextGivesTheShiftedStateAndNothingElse : Prop :=
  (∀ (v : Byte) (s : State), ∃ t,
    exec (.next v) s = .next t ∧ t.coreLog = s.coreLog ++ [(v, lfsrNext v)] ∧
    ((lfsrNext v).getLsbD 7 = (v.getLsbD 0 ^^ v.getLsbD 2 ^^ v.getLsbD 3 ^^ v.getLsbD 4)) ∧
    (∀ j < 7, (lfsrNext v).getLsbD j = v.getLsbD (j + 1)) ∧
    { t with coreLog := s.coreLog } = s ∧ encode (.next v) = none) ∧
  lfsrNext 0x00 = 0x00 ∧ lfsrNext 0xFF = 0x7F ∧ lfsrNext 0x2A = 0x95

/-- 40_lfsr_core.md R31, which the spec marks "derived: from rule R30": the bit form of NEXT, and the recurrence of the output bits a_k = (seed after k advances)[0]. -/
def Obligations.OutputBitsFollowTheRecurrence : Prop :=
  ∀ (s : Byte),
    (lfsrNext s).getLsbD 7 = (s.getLsbD 0 ^^ s.getLsbD 2 ^^ s.getLsbD 3 ^^ s.getLsbD 4) ∧
    (∀ j < 7, (lfsrNext s).getLsbD j = s.getLsbD (j + 1)) ∧
    ∀ k : Nat, (lfsrNext^[k + 8] s).getLsbD 0 =
      ((lfsrNext^[k] s).getLsbD 0 ^^ (lfsrNext^[k + 2] s).getLsbD 0 ^^ (lfsrNext^[k + 3] s).getLsbD 0 ^^
        (lfsrNext^[k + 4] s).getLsbD 0)

/-- 40_lfsr_core.md R35, which the spec marks "derived: from rule R30, by exhaustive evaluation of all 256 inputs": NEXT is
a permutation, 0x00 is its only fixed point, the other 255 values are a single cycle of period 255, and
from 0x2A the first 24 values are those listed. -/
def Obligations.NextIsOneCycleOf255 : Prop :=
  Function.Bijective lfsrNext ∧
  (∀ s, lfsrNext s = s ↔ s = 0) ∧
  (∀ s t : Byte, s ≠ 0 → t ≠ 0 → ∃ k, lfsrNext^[k] s = t) ∧
  (∀ s : Byte, s ≠ 0 → lfsrNext^[255] s = s ∧ ∀ k : Nat, 0 < k → k < 255 → lfsrNext^[k] s ≠ s) ∧
  (List.range 24).map (fun k => lfsrNext^[k + 1] 0x2A) =
    [0x95, 0xCA, 0xE5, 0x72, 0xB9, 0xDC, 0xEE, 0x77, 0xBB, 0xDD, 0x6E, 0x37, 0x9B, 0xCD, 0xE6, 0xF3, 0x79, 0xBC, 0xDE,
      0xEF, 0xF7, 0xFB, 0xFD, 0x7E]

/-- 40_lfsr_core.md R36, which the spec marks "derived: from rule R31": PREV is the inverse of NEXT, on both sides, with the bits the rule gives and its two examples. -/
def Obligations.PrevInvertsNext : Prop :=
  (∀ s, lfsrPrev (lfsrNext s) = s) ∧ (∀ t, lfsrNext (lfsrPrev t) = t) ∧
  (∀ t, (∀ j < 7, (lfsrPrev t).getLsbD (j + 1) = t.getLsbD j) ∧
    (lfsrPrev t).getLsbD 0 = (t.getLsbD 7 ^^ t.getLsbD 1 ^^ t.getLsbD 2 ^^ t.getLsbD 3)) ∧
  lfsrPrev 0x95 = 0x2A ∧ lfsrPrev 0x2A = 0x54

/-! ## READ -/

/-- R37, R38, R39: a READ all of whose copies succeed completes. With n = min(len, 8) it copies the n advanced seeds, in
order, to addr, addr + 1, ...; it leaves the seed n advances on, the lock free and no record, and it responds n. All else
is as before, but for the buffers (see ReadStoresItsBytes) and the model's own stream of answers. -/
def Obligations.ReadWithoutFailureCopiesTheClampedCount : Prop :=
  ∀ (s : State) (sp : Space) (len : Len) (addr : Addr),
    s.Ready → s.lock = .free → (∀ j < min len.toNat 8, s.putAnswerAt j = .ok) →
    ∃ t, exec (.read sp len addr) s = .next t ∧
      t.seed = lfsrNext^[min len.toNat 8] s.seed ∧
      t.caller s.requester = .done (BitVec.ofNat 32 (min len.toNat 8)) ∧
      t.lock = .free ∧ t.txn = none ∧
      t.copies = s.copies ++ (List.range (min len.toNat 8)).map
        (fun j => .memWrite sp ((addr + j) % 2 ^ s.addrW) (lfsrNext^[j + 1] s.seed) .ok) ∧
      t.puts = s.puts.drop (min len.toNat 8) ∧ t.draws = s.draws + min len.toNat 8 ∧
      (∀ c, c ≠ s.requester → t.caller c = s.caller c) ∧
      { t with
        seed := s.seed, lock := s.lock, txn := s.txn, callers := s.callers, kernel := s.kernel, user := s.user
        copies := s.copies, puts := s.puts, draws := s.draws } = s

/-- R40: where byte k is the first whose copy fails, the READ stops at once. It responds k, its seed has advanced k + 1
times, no later byte is advanced or copied, the status of the failure is discarded, and the failure changes nothing else
in the block. -/
def Obligations.ReadStopsAtTheFirstFailedCopy : Prop :=
  ∀ (s : State) (sp : Space) (len : Len) (addr : Addr) (k : Nat) (st : Status),
    s.Ready → s.lock = .free → k < min len.toNat 8 → (∀ j < k, s.putAnswerAt j = .ok) → s.putAnswerAt k = .fail st →
    ∃ t, exec (.read sp len addr) s = .next t ∧
      t.seed = lfsrNext^[k + 1] s.seed ∧
      t.caller s.requester = .done (BitVec.ofNat 32 k) ∧
      t.lock = .free ∧ t.txn = none ∧
      t.copies = s.copies ++ (List.range k).map
        (fun j => .memWrite sp ((addr + j) % 2 ^ s.addrW) (lfsrNext^[j + 1] s.seed) .ok) ++
        [.memWrite sp ((addr + k) % 2 ^ s.addrW) (lfsrNext^[k + 1] s.seed) (.fail st)] ∧
      t.puts = s.puts.drop (k + 1) ∧ t.draws = s.draws + (k + 1) ∧
      (∀ c, c ≠ s.requester → t.caller c = s.caller c) ∧
      { t with
        seed := s.seed, lock := s.lock, txn := s.txn, callers := s.callers, kernel := s.kernel, user := s.user
        copies := s.copies, puts := s.puts, draws := s.draws } = s

/-- R52, R55, R72: what a READ stores. Where the first k copies succeed and k is the clamped count or the copy of byte k
fails, byte j < k of the buffer, at (addr + j) mod 2^ADDR_W, is the seed after j + 1 advances; every other byte of that
space, and every byte of the other space, reads as before. For every ADDR_W that R9 allows: at least 4. -/
def Obligations.ReadStoresItsBytes : Prop :=
  ∀ (s : State) (sp : Space) (len : Len) (addr : Addr) (k : Nat),
    4 ≤ s.addrW → s.Ready → s.lock = .free → k ≤ min len.toNat 8 → (∀ j < k, s.putAnswerAt j = .ok) →
    (k = min len.toNat 8 ∨ ∃ st, s.putAnswerAt k = .fail st) →
    ∃ t, exec (.read sp len addr) s = .next t ∧
      (∀ j < k, t.bufByte sp (byteAddr s.addrW addr (BitVec.ofNat 4 j)) = some (lfsrNext^[j + 1] s.seed)) ∧
      (∀ a, (∀ j < k, a ≠ byteAddr s.addrW addr (BitVec.ofNat 4 j)) → t.bufByte sp a = s.bufByte sp a) ∧
      ∀ sp' a, sp' ≠ sp → t.bufByte sp' a = s.bufByte sp' a

/-- What a READ leaves unchanged whenever it gives a next state, waiting or not: every field but seed, lock, txn, its own
cs[c], the buffers, the copies made and the stream of MemWrite answers; and every byte of memory outside the at most
min(len, 8) bytes it copies to. -/
def Obligations.ReadFrame : Prop :=
  ∀ (s t : State) (sp : Space) (len : Len) (addr : Addr),
    exec (.read sp len addr) s = .next t →
    (∀ c, c ≠ s.requester → t.caller c = s.caller c) ∧
    (∀ a, (∀ j < min len.toNat 8, a ≠ byteAddr s.addrW addr (BitVec.ofNat 4 j)) → t.bufByte sp a = s.bufByte sp a) ∧
    (∀ sp' a, sp' ≠ sp → t.bufByte sp' a = s.bufByte sp' a) ∧
    { t with
      seed := s.seed, lock := s.lock, txn := s.txn, callers := s.callers, kernel := s.kernel, user := s.user
      copies := s.copies, puts := s.puts, draws := s.draws } = s

/-- R19: while another operation holds the lock, an admitted READ, and an admitted WRITE of length 1, waits: its caller is
Waiting with the request, of whose address the port takes ADDR_W bits (log 25), and nothing else changes. -/
def Obligations.OperationsWaitForAHeldLock : Prop :=
  ∀ (s : State) (c : CallerId) (sp : Space) (len : Len) (addr : Addr),
    s.Ready → s.lock = .held c →
    (∃ t, exec (.read sp len addr) s = .next t ∧ t.caller s.requester = .waiting ⟨.read, sp, len, addr % 2 ^ s.addrW⟩ ∧
      (∀ d, d ≠ s.requester → t.caller d = s.caller d) ∧ { t with callers := s.callers } = s) ∧
    ∃ t, exec (.write sp 1 addr) s = .next t ∧ t.caller s.requester = .waiting ⟨.write, sp, 1, addr % 2 ^ s.addrW⟩ ∧
      (∀ d, d ≠ s.requester → t.caller d = s.caller d) ∧ { t with callers := s.callers } = s

/-- R41: a READ responds with the number of its copies that succeeded, 0 to 8, never negative; R42: it has released the
lock. For every answer the copy primitive can give. -/
def Obligations.ReadRespondsWithTheBytesCopied : Prop :=
  ∀ (s : State) (sp : Space) (len : Len) (addr : Addr), s.Ready → s.lock = .free →
    ∃ t new st, exec (.read sp len addr) s = .next t ∧ t.copies = s.copies ++ new ∧
      t.caller s.requester = .done st ∧ st.toInt = (new.countP copyOk : Int) ∧ 0 ≤ st.toInt ∧ st.toInt ≤ 8 ∧
      t.lock = .free

/-- R38: a READ attempts n = min(len, 8) copies, fewer only where a copy fails; so it attempts fewer than len only where
len > 8 or a copy fails. -/
def Obligations.ReadAttemptsAtMostEightCopies : Prop :=
  ∀ (s : State) (sp : Space) (len : Len) (addr : Addr), s.Ready → s.lock = .free →
    ∃ t new, exec (.read sp len addr) s = .next t ∧ t.copies = s.copies ++ new ∧
      new.length ≤ min len.toNat 8 ∧
      (new.length < min len.toNat 8 → ∃ r ∈ new, copyOk r = false) ∧
      (new.length < len.toNat → 8 < len.toNat ∨ ∃ r ∈ new, copyOk r = false)

/-- 60_exceptions.md R81, which the spec marks "derived: from 41_device_adapter.md rules R38 and R41": a copy of the READ failed exactly when its count is smaller than min(len, 8). -/
def Obligations.ShortCountMeansAFailedCopy : Prop :=
  ∀ (s : State) (sp : Space) (len : Len) (addr : Addr), s.Ready → s.lock = .free →
    ∃ t new st, exec (.read sp len addr) s = .next t ∧ t.copies = s.copies ++ new ∧
      t.caller s.requester = .done st ∧ (st.toNat < min len.toNat 8 ↔ ∃ r ∈ new, copyOk r = false)

/-- R33, and 70_reset_and_hazards.md R96, which the spec marks as derived from it: with the seed 0x00 every byte a READ copies is 0x00 and the seed stays 0x00, for every answer of the copy
primitive. -/
def Obligations.ReadOfAZeroSeedCopiesZeros : Prop :=
  ∀ (s : State) (sp : Space) (len : Len) (addr : Addr), s.Ready → s.lock = .free → s.seed = 0 →
    ∃ t new, exec (.read sp len addr) s = .next t ∧ t.copies = s.copies ++ new ∧ t.seed = 0 ∧
      ∀ r ∈ new, ∃ a ans, r = .memWrite sp a 0x00 ans

/-- R86: the block treats the two spaces alike. From one state, a READ or WRITE of space 0 and the same one of space 1
leave the same seed, lock, record, callers, and stream of answers. -/
def Obligations.SpacesAreTreatedAlike : Prop :=
  ∀ (s : State) (len : Len) (addr : Addr), s.Ready → s.lock = .free →
    (∃ t u, exec (.read .kernel len addr) s = .next t ∧ exec (.read .user len addr) s = .next u ∧
      { t with kernel := s.kernel, user := s.user, copies := s.copies } =
        { u with kernel := s.kernel, user := s.user, copies := s.copies }) ∧
    ∃ t u, exec (.write .kernel len addr) s = .next t ∧ exec (.write .user len addr) s = .next u ∧
      { t with kernel := s.kernel, user := s.user, copies := s.copies } =
        { u with kernel := s.kernel, user := s.user, copies := s.copies }

/-- 20_memory.md R58, which the spec marks "derived: from 41_device_adapter.md rules R39 and R45": two READs of the same
length one after the other, all of whose copies succeed, copy different first bytes where the seed is not 0x00. -/
def Obligations.RepeatedReadsDifferInTheirFirstByte : Prop :=
  ∀ (s : State) (sp : Space) (len : Len) (addr : Addr),
    s.Ready → Rising s.callers → s.lock = .free → s.seed ≠ 0 → len ≠ 0 →
    (∀ j < min len.toNat 8, s.putAnswerAt j = .ok) →
    ∃ t u v b b' ans' later later', exec (.read sp len addr) s = .next t ∧ t.stepTake s.requester = .next u ∧
      exec (.read sp len addr) u = .next v ∧
      t.copies = s.copies ++ .memWrite sp (addr % 2 ^ s.addrW) b .ok :: later ∧
      v.copies = t.copies ++ .memWrite sp (addr % 2 ^ s.addrW) b' ans' :: later' ∧ b ≠ b'

/-! ## WRITE -/

/-- R44: a WRITE of any length but 1 responds STATUS_EINVAL at once, even while the lock is held; it makes no copy, takes no
lock and touches nothing but its own cs[c]. STATUS_EINVAL is a parameter constrained to be negative, as R79 lets a model
take it: a clause of State.Inv. What it is in State.reset stands in ResetIsTheStateAfterInit. -/
def Obligations.WriteOfABadLengthFailsAtOnce : Prop :=
  ∀ (s : State) (sp : Space) (len : Len) (addr : Addr), s.Ready → len ≠ 1 →
    ∃ t, exec (.write sp len addr) s = .next t ∧ t.caller s.requester = .done s.einval ∧ (s.Inv → s.einval.toInt < 0) ∧
      (∀ d, d ≠ s.requester → t.caller d = s.caller d) ∧ { t with callers := s.callers } = s

/-- R45, R46: a WRITE of length 1 whose copy answers Ok(b) makes exactly one copy and replaces the seed with exactly b,
not with NEXT(b); it responds +1 and leaves the lock free. Memory and all else are as before (frame). -/
def Obligations.WriteReplacesTheSeed : Prop :=
  ∀ (s : State) (sp : Space) (addr : Addr) (b : Byte), s.Ready → s.lock = .free → s.getAnswer = .ok b →
    ∃ t, exec (.write sp 1 addr) s = .next t ∧ t.seed = b ∧ t.caller s.requester = .done 1 ∧
      t.copies = s.copies ++ [.memRead sp (addr % 2 ^ s.addrW) (.ok b)] ∧ t.gets = s.gets.drop 1 ∧ t.draws = s.draws + 1 ∧
      t.lock = .free ∧ t.txn = none ∧ (∀ d, d ≠ s.requester → t.caller d = s.caller d) ∧
      { t with
        seed := s.seed, lock := s.lock, txn := s.txn, callers := s.callers, copies := s.copies, gets := s.gets
        draws := s.draws } = s

/-- R47, R80: a WRITE whose copy answers Fail(st) leaves the seed unchanged, responds st itself whatever its sign, and
releases the lock. Memory and all else are as before (frame). -/
def Obligations.WriteWithAFailedCopyKeepsTheSeed : Prop :=
  ∀ (s : State) (sp : Space) (addr : Addr) (st : Status), s.Ready → s.lock = .free → s.getAnswer = .fail st →
    ∃ t, exec (.write sp 1 addr) s = .next t ∧ t.seed = s.seed ∧ t.caller s.requester = .done st ∧
      t.copies = s.copies ++ [.memRead sp (addr % 2 ^ s.addrW) (.fail st)] ∧ t.gets = s.gets.drop 1 ∧ t.draws = s.draws + 1 ∧
      t.lock = .free ∧ t.txn = none ∧ (∀ d, d ≠ s.requester → t.caller d = s.caller d) ∧
      { t with
        lock := s.lock, txn := s.txn, callers := s.callers, copies := s.copies, gets := s.gets
        draws := s.draws } = s

/-- What a WRITE leaves unchanged whenever it gives a next state, of any length, waiting or not: it stores nothing, so
every byte of both spaces reads as before, and it changes no field but seed, lock, txn, its own cs[c], the copies made
and the stream of MemRead answers. -/
def Obligations.WriteFrame : Prop :=
  ∀ (s t : State) (sp : Space) (len : Len) (addr : Addr),
    exec (.write sp len addr) s = .next t →
    (∀ c, c ≠ s.requester → t.caller c = s.caller c) ∧
    (∀ sp' a, t.bufByte sp' a = s.bufByte sp' a) ∧
    { t with
      seed := s.seed, lock := s.lock, txn := s.txn, callers := s.callers, copies := s.copies, gets := s.gets
      draws := s.draws } = s

/-- R98: after a WRITE of b the first byte a READ copies is NEXT(b), not the byte written: the WRITE, the caller taking
its status, and a READ of at least one byte. -/
def Obligations.FirstByteAfterAWriteIsNextOfIt : Prop :=
  ∀ (s : State) (sp sp' : Space) (addr addr' : Addr) (b : Byte) (len : Len),
    s.Ready → Rising s.callers → s.lock = .free → s.getAnswer = .ok b → len ≠ 0 →
    ∃ t u v, exec (.write sp 1 addr) s = .next t ∧ t.stepTake s.requester = .next u ∧
      exec (.read sp' len addr') u = .next v ∧
      ∃ ans later, v.copies = t.copies ++ .memWrite sp' (addr' % 2 ^ s.addrW) (lfsrNext b) ans :: later

/-- 70_reset_and_hazards.md R97, which the spec marks "derived: from 41_device_adapter.md rules R39 and R40": after a READ
whose copy of byte k failed, a retry does not copy that byte's value: its first byte is NEXT of it. -/
def Obligations.RetryLosesTheFailedByte : Prop :=
  ∀ (s : State) (sp sp' : Space) (addr addr' : Addr) (len len' : Len) (k : Nat) (st : Status),
    s.Ready → Rising s.callers → s.lock = .free → k < min len.toNat 8 → (∀ j < k, s.putAnswerAt j = .ok) →
    s.putAnswerAt k = .fail st → len' ≠ 0 →
    ∃ t u v, exec (.read sp len addr) s = .next t ∧ t.stepTake s.requester = .next u ∧
      exec (.read sp' len' addr') u = .next v ∧
      (∃ older, t.copies = older ++ [.memWrite sp (byteAddr s.addrW addr (BitVec.ofNat 4 k)) t.seed (.fail st)]) ∧
      ∃ ans later, v.copies = t.copies ++ .memWrite sp' (addr' % 2 ^ s.addrW) (lfsrNext t.seed) ans :: later

/-! ## INIT, and requests that are not served -/

/-- R91: INIT, applied while initialised = false, completes: lock Free, READ and WRITE registered at DEV_SLOT, seed 0x2A,
txn None, cs[c] Idle for every caller, initialised. All else is as before, memory with it (frame). -/
def Obligations.InitEstablishesTheResetState : Prop :=
  ∀ s : State, s.initialised = false →
    ∃ t, exec .init s = .next t ∧ t.lock = .free ∧ t.registration = some Config.devSlot ∧ t.seed = 0x2A ∧
      t.txn = none ∧ (∀ c, t.caller c = .idle) ∧ t.initialised = true ∧ lfsrNext t.seed = 0x95 ∧
      { t with
        lock := s.lock, registration := s.registration, seed := s.seed, txn := s.txn, callers := s.callers
        initialised := s.initialised } = s

/-- R29: the values after INIT and before it, and INIT leads from the one to the other. What the spec calls undefined
before INIT (seed, lock) is not stated. Of the OPEN parameters, ADDR_W and STATUS_EINVAL have R9's defaults at reset; that
State.reset takes the defaults is the model's choice (log 12, log 13). -/
def Obligations.ResetIsTheStateAfterInit : Prop :=
  State.reset.seed = 0x2A ∧ State.reset.lock = .free ∧ State.reset.txn = none ∧ (∀ c, State.reset.caller c = .idle) ∧
  State.reset.initialised = true ∧ State.reset.registration = some Config.devSlot ∧
  State.reset.addrW = 64 ∧ State.reset.einval = 0xFFFFFFFF ∧ (0xFFFFFFFF : Status).toInt = -1 ∧
  State.powerUp.txn = none ∧ (∀ c, State.powerUp.caller c = .idle) ∧ State.powerUp.initialised = false ∧
  State.powerUp.registration = none ∧
  exec .init State.powerUp = .next State.reset

/-- R94: there is no second INIT, with or without an operation in flight: it has no move, and the model stops under the
name secondInit. -/
def Obligations.SecondInitHasNoMove : Prop :=
  ∀ s : State, s.initialised = true → exec .init s = .fault .secondInit

/-- R89 and R82: before INIT every READ and every WRITE, whatever its operands, is FAULT_UNINIT, and so is the step that
would issue one. -/
def Obligations.RequestsBeforeInitFault : Prop :=
  ∀ s : State, s.initialised = false →
    (∀ sp len addr, exec (.read sp len addr) s = .fault .uninit ∧ exec (.write sp len addr) s = .fault .uninit) ∧
    ∀ c r q rest, decodeRequest r = .ok q →
      s.schedule = .issue c r :: rest ∨ s.schedule = .request c r :: rest → step s = .fault .uninit

/-- R19, R22: a caller with a request outstanding, and a caller that does not exist, has no second or first one: the model
stops by name (the model's reading of "no such move", log 10). -/
def Obligations.OnlyAnIdleCallerIssues : Prop :=
  ∀ (s : State) (sp : Space) (len : Len) (addr : Addr), s.initialised = true →
    (s.requester < s.nCallers → s.caller s.requester ≠ .idle →
      exec (.read sp len addr) s = .fault .callerBusy ∧ exec (.write sp len addr) s = .fault .callerBusy) ∧
    (s.nCallers ≤ s.requester →
      exec (.read sp len addr) s = .fault .noSuchCaller ∧ exec (.write sp len addr) s = .fault .noSuchCaller)

/-! ## The atomic steps of R49 -/

/-- R49 ISSUE(c, req): an Idle caller's request, decoded, makes it Waiting, or Done(STATUS_EINVAL) for a WRITE of another
length than 1; nothing else changes. Of the address the port takes ADDR_W bits (log 25). -/
def Obligations.IssueStep : Prop :=
  ∀ (s : State) (c : CallerId) (r : RawRequest) (q : Request) (rest : List Move),
    s.schedule = .issue c r :: rest → decodeRequest r = .ok q →
    s.initialised = true → c < s.nCallers → s.caller c = .idle →
    ∃ t, step s = .next t ∧
      (q.op = .write → q.len ≠ 1 → t.caller c = .done s.einval) ∧
      (q.op = .read ∨ q.len = 1 → t.caller c = .waiting { q with addr := q.addr % 2 ^ s.addrW }) ∧
      (∀ d, d ≠ c → t.caller d = s.caller d) ∧ { t with callers := s.callers } = s.setSchedule rest

/-- R49 ACQUIRE(c): with the lock Free a waiting caller takes it: lock Held(c), the record with n = min(len, 8) for a READ
and 1 for a WRITE and i = 0, cs[c] Active. R19: with the lock Held the caller waits and has no step; that a scheduled
ACQUIRE is then taken off the schedule and changes nothing else is the MODEL'S CHOICE (log 3). -/
def Obligations.AcquireStep : Prop :=
  ∀ (s : State) (c : CallerId) (q : Request) (rest : List Move),
    s.schedule = .acquire c :: rest → s.initialised = true → s.caller c = .waiting q →
    (s.lock = .free → ∃ t x, step s = .next t ∧ t.lock = .held c ∧ t.txn = some x ∧
      x.owner = c ∧ x.op = q.op ∧ x.space = q.space ∧ x.addr = q.addr ∧ x.i = 0 ∧
      x.n.toNat = (if q.op = .read then min q.len.toNat 8 else 1) ∧
      t.caller c = .active ∧ (∀ d, d ≠ c → t.caller d = s.caller d) ∧
      { t with lock := s.lock, txn := s.txn, callers := s.callers } = s.setSchedule rest) ∧
    ∀ d, s.lock = .held d → step s = .next (s.setSchedule rest)

/-- R49 READ_BYTE(c, ans): the seed advances, then the new seed is copied to addr + i; on Ok the index goes up, on Fail
the operation finishes with the count i, the lock Free. One answer of the MemWrites to come is consumed, and nothing else
changes (frame). -/
def Obligations.ReadByteStep : Prop :=
  ∀ (s : State) (c : CallerId) (x : Txn) (rest : List Move),
    s.schedule = .readByte c :: rest → s.initialised = true → s.txn = some x →
    x.owner = c → x.op = .read → x.i < x.n →
    ∃ t, step s = .next t ∧ t.seed = lfsrNext s.seed ∧
      t.copies = s.copies ++ [.memWrite x.space (byteAddr s.addrW x.addr x.i) (lfsrNext s.seed) s.putAnswer] ∧
      t.puts = s.puts.drop 1 ∧ t.draws = s.draws + 1 ∧
      (s.putAnswer = .ok → t.txn = some { x with i := x.i + 1 } ∧ t.lock = s.lock ∧ t.callers = s.callers ∧
        t.bufByte x.space (byteAddr s.addrW x.addr x.i) = some (lfsrNext s.seed)) ∧
      (∀ st, s.putAnswer = .fail st → t.txn = none ∧ t.lock = .free ∧ t.caller c = .done (x.i.setWidth 32) ∧
        (∀ d, d ≠ c → t.caller d = s.caller d) ∧ t.kernel = s.kernel ∧ t.user = s.user) ∧
      (∀ sp a, sp ≠ x.space ∨ a ≠ byteAddr s.addrW x.addr x.i → t.bufByte sp a = s.bufByte sp a) ∧
      { t with
        seed := s.seed, lock := s.lock, txn := s.txn, callers := s.callers, kernel := s.kernel, user := s.user
        copies := s.copies, puts := s.puts, draws := s.draws } = s.setSchedule rest

/-- R49 READ_END(c): a READ that has copied all its bytes responds n and finishes; the seed and memory are as before. -/
def Obligations.ReadEndStep : Prop :=
  ∀ (s : State) (c : CallerId) (x : Txn) (rest : List Move),
    s.schedule = .readEnd c :: rest → s.txn = some x → x.owner = c → x.op = .read → x.i = x.n →
    ∃ t, step s = .next t ∧ t.lock = .free ∧ t.txn = none ∧ t.caller c = .done (x.n.setWidth 32) ∧
      (∀ d, d ≠ c → t.caller d = s.caller d) ∧
      { t with lock := s.lock, txn := s.txn, callers := s.callers } = s.setSchedule rest

/-- R49 WRITE_COPY(c, ans): one MemRead; on Ok(b) the seed is b and the status +1, on Fail(st) the seed is as before and
the status st; the operation finishes either way. One answer of the MemReads to come is consumed, and nothing else changes
(frame). -/
def Obligations.WriteCopyStep : Prop :=
  ∀ (s : State) (c : CallerId) (x : Txn) (rest : List Move),
    s.schedule = .writeCopy c :: rest → s.initialised = true → s.txn = some x → x.owner = c → x.op = .write →
    ∃ t, step s = .next t ∧ t.lock = .free ∧ t.txn = none ∧
      t.copies = s.copies ++ [.memRead x.space x.addr s.getAnswer] ∧ t.gets = s.gets.drop 1 ∧ t.draws = s.draws + 1 ∧
      (∀ b, s.getAnswer = .ok b → t.seed = b ∧ t.caller c = .done 1) ∧
      (∀ st, s.getAnswer = .fail st → t.seed = s.seed ∧ t.caller c = .done st) ∧
      (∀ d, d ≠ c → t.caller d = s.caller d) ∧
      { t with
        seed := s.seed, lock := s.lock, txn := s.txn, callers := s.callers, copies := s.copies, gets := s.gets
        draws := s.draws } = s.setSchedule rest

/-- R49 TAKE(c): a caller that is Done(st) receives st and is Idle again; nothing else changes. -/
def Obligations.TakeStep : Prop :=
  ∀ (s : State) (c : CallerId) (st : Status) (rest : List Move),
    s.schedule = .take c :: rest → Rising s.callers → s.caller c = .done st →
    ∃ t, step s = .next t ∧ t.caller c = .idle ∧ t.received = s.received ++ [(c, st)] ∧
      (∀ d, d ≠ c → t.caller d = s.caller d) ∧
      { t with callers := s.callers, received := s.received } = s.setSchedule rest

/-- R49's enabling conditions: a scheduled step that is not enabled has no effect. ACQUIRE of a caller that is not Waiting;
READ_BYTE, READ_END and WRITE_COPY where no operation is in flight, where it is another caller's or of the other kind, or
where its index does not fit (READ_BYTE needs i < n, READ_END i = n); TAKE of a caller that is not Done. That the move is
then taken off the schedule and changes nothing else is the MODEL'S CHOICE (log 3); ACQUIRE of a waiting caller with the
lock held is in AcquireStep. -/
def Obligations.StepsThatAreNotEnabledChangeNothing : Prop :=
  ∀ (s : State) (c : CallerId) (rest : List Move),
    (s.schedule = .acquire c :: rest → (∀ q, s.caller c ≠ .waiting q) → step s = .next (s.setSchedule rest)) ∧
    (s.schedule = .readByte c :: rest → (∀ x, s.txn = some x → x.owner ≠ c ∨ x.op ≠ .read ∨ x.n ≤ x.i) →
      step s = .next (s.setSchedule rest)) ∧
    (s.schedule = .readEnd c :: rest → (∀ x, s.txn = some x → x.owner ≠ c ∨ x.op ≠ .read ∨ x.i ≠ x.n) →
      step s = .next (s.setSchedule rest)) ∧
    (s.schedule = .writeCopy c :: rest → (∀ x, s.txn = some x → x.owner ≠ c ∨ x.op ≠ .write) →
      step s = .next (s.setSchedule rest)) ∧
    (s.schedule = .take c :: rest → (∀ st, s.caller c ≠ .done st) → step s = .next (s.setSchedule rest))

/-- R26, R29, I2: the seed and the lock have no value before INIT and reading one is a fault. The steps that read them stop
under the name undefinedBeforeInit (log 7), in states that no run reaches: before INIT no caller waits and nothing is in
flight. -/
def Obligations.SeedAndLockAreNotReadBeforeInit : Prop :=
  ∀ (s : State) (c : CallerId) (rest : List Move), s.initialised = false →
    (∀ q, s.schedule = .acquire c :: rest → s.caller c = .waiting q → step s = .fault .undefinedBeforeInit) ∧
    (∀ x, s.schedule = .readByte c :: rest → s.txn = some x → x.owner = c → x.op = .read → x.i < x.n →
      step s = .fault .undefinedBeforeInit) ∧
    ∀ x, s.schedule = .writeCopy c :: rest → s.txn = some x → x.owner = c → x.op = .write →
      step s = .fault .undefinedBeforeInit

/-- R11, R67, R72: an operation depends only on the ADDR_W bits of its address. That the port takes those bits of a larger
number is the MODEL'S CHOICE (log 25); addresses below 2^ADDR_W, the only ones R67 gives a request, stand as they are. -/
def Obligations.OnlyTheAddressBitsCount : Prop :=
  ∀ (s : State) (sp : Space) (len : Len) (addr : Addr),
    exec (.read sp len addr) s = exec (.read sp len (addr % 2 ^ s.addrW)) s ∧
    exec (.write sp len addr) s = exec (.write sp len (addr % 2 ^ s.addrW)) s ∧
    (addr < 2 ^ s.addrW → ∀ op, s.onPort ⟨op, sp, len, addr⟩ = ⟨op, sp, len, addr⟩)

/-! ## Whole-machine rules -/

/-- The invariant holds after reset and before INIT. -/
def Obligations.ResetSatisfiesTheInvariant : Prop := State.reset.Inv ∧ State.powerUp.Inv

/-- Every step keeps the invariant: the parameters as R9 bounds them, the buffers and the caller table in canonical form,
the lock and the record in agreement (R21), the holder the one Active caller (R22), counts and addresses in range, and only
a WRITE of length 1 waiting. -/
def Obligations.EveryStepKeepsTheInvariant : Prop :=
  ∀ s t : State, s.Inv → step s = .next t → t.Inv

/-- R27, R51, R52, with the MODEL'S CHOICE of log 6: the buffers hold what the successful MemWrites made so far stored, and
nothing else, so they list nothing at reset; true after reset, and kept by every step. What other agents store in the
external spaces (R62) is not in State. -/
def Obligations.BuffersHoldExactlyTheBytesCopied : Prop :=
  (State.reset.kernel = replay .kernel State.reset.copies ∧ State.reset.user = replay .user State.reset.copies) ∧
  ∀ s t : State, s.kernel = replay .kernel s.copies → s.user = replay .user s.copies → step s = .next t →
    t.kernel = replay .kernel t.copies ∧ t.user = replay .user t.copies

/-- R49, R37: a READ of R37 is the sequence of its steps of R49: ISSUE, ACQUIRE, at most eight READ_BYTE, READ_END. For
every answer of the copy primitive. Eight READ_BYTE are run; that those no longer enabled change nothing is the MODEL'S
CHOICE (log 3). -/
def Obligations.ReadIsTheSequenceOfItsSteps : Prop :=
  ∀ (s : State) (r : RawRequest) (sp : Space) (len : Len) (addr : Addr) (rest : List Move),
    s.Ready → s.lock = .free → decode r = .ok (.read sp len addr) →
    Host.Core.run Sys2Proof.core 11
      (s.setSchedule (.issue s.requester r :: .acquire s.requester ::
          (List.replicate 8 (Move.readByte s.requester) ++ .readEnd s.requester :: rest))) =
      exec (.read sp len addr) (s.setSchedule rest)

/-- R49, R43: a WRITE of R43 is the sequence of its steps of R49: ISSUE, ACQUIRE, WRITE_COPY. For a length other than 1,
which is done with ISSUE, that the two later moves are not enabled and change nothing is the MODEL'S CHOICE (log 3). -/
def Obligations.WriteIsTheSequenceOfItsSteps : Prop :=
  ∀ (s : State) (r : RawRequest) (sp : Space) (len : Len) (addr : Addr) (rest : List Move),
    s.Ready → s.lock = .free → s.txn = none → decode r = .ok (.write sp len addr) →
    Host.Core.run Sys2Proof.core 3
      (s.setSchedule (.issue s.requester r :: .acquire s.requester :: .writeCopy s.requester :: rest)) =
      exec (.write sp len addr) (s.setSchedule rest)

/-- R18: the seed is read and written only while the lock is held: a step that changes it is INIT, a copy step of the
caller that holds the lock, or a whole request, which takes the free lock itself. -/
def Obligations.OnlyTheHolderChangesTheSeed : Prop :=
  ∀ s t : State, s.Inv → step s = .next t → t.seed ≠ s.seed →
    ∃ m rest, s.schedule = m :: rest ∧
      ((m = .init ∧ s.initialised = false) ∨
       (∃ c, (m = .readByte c ∨ m = .writeCopy c) ∧ s.lock = .held c) ∨
       ∃ c r, m = .request c r ∧ s.lock = .free ∧ s.caller c = .idle)

/-- R48, R61: while caller `c` holds the lock, the moves of all other callers, however they are interleaved with c's, leave
what c's operation reads and writes exactly as c's own moves alone would: seed, lock, record, buffers, copies and answers.
A move that is not enabled is skipped (the MODEL'S CHOICE, log 3). -/
def Obligations.OtherCallersDoNotDisturbTheHolder : Prop :=
  ∀ (s t : State) (c : CallerId) (ms : List Move),
    s.Inv → s.initialised = true → s.lock = .held c →
    (∀ m ∈ ms, moveCaller m = some c → criticalMove c m) →
    runMoves ms s = .next t → t.lock = .held c →
    ∃ u, runMoves (ms.filter (fun m => moveCaller m = some c)) s = .next u ∧ t.critical = u.critical

/-- R101: a READ that has taken the lock frees it within 9 of its own steps, a WRITE within one, whatever the answers; the
caller is then done. Eight READ_BYTE and a READ_END are run; that those no longer enabled change nothing is the MODEL'S
CHOICE (log 3). -/
def Obligations.TheLockIsFreedWithinNineSteps : Prop :=
  ∀ (s : State) (x : Txn), s.Inv → s.initialised = true → s.txn = some x →
    (x.op = .read → ∃ t k, runMoves (List.replicate 8 (.readByte x.owner) ++ [.readEnd x.owner]) s = .next t ∧
      t.lock = .free ∧ t.txn = none ∧ k ≤ 8 ∧ t.caller x.owner = .done (BitVec.ofNat 32 k)) ∧
    (x.op = .write → ∃ t st, runMoves [.writeCopy x.owner] s = .next t ∧
      t.lock = .free ∧ t.txn = none ∧ t.caller x.owner = .done st)

/-- R22, R49, R102: a step changes a caller's state only as R22 and R49 say: its own request makes it Waiting or Done, its
own ACQUIRE of the free lock makes a Waiting caller Active with the operation it asked for, a step of its own operation
makes it Done from Active, and its own TAKE makes it Idle from Done, with the status received. So a waiting caller cannot
withdraw its request, and nobody else can end it. -/
def Obligations.CallerStatesChangeOnlyAsStated : Prop :=
  ∀ (s t : State) (c : CallerId), s.Inv → step s = .next t → t.caller c ≠ s.caller c →
    ∃ m rest, s.schedule = m :: rest ∧
      ((s.caller c = .idle ∧ (∃ r, m = .issue c r ∨ m = .request c r) ∧
          ((∃ q, t.caller c = .waiting q) ∨ ∃ st, t.caller c = .done st)) ∨
       (∃ q, s.caller c = .waiting q ∧ m = .acquire c ∧ s.lock = .free ∧ t.lock = .held c ∧ t.txn = some (txnOf c q) ∧
          t.caller c = .active) ∨
       (s.caller c = .active ∧ s.lock = .held c ∧ criticalMove c m ∧ t.lock = .free ∧ ∃ st, t.caller c = .done st) ∨
       (∃ st, s.caller c = .done st ∧ m = .take c ∧ t.received = s.received ++ [(c, st)] ∧ t.caller c = .idle))

/-- R102: an operation that has acquired the lock runs to its response; there is no cancellation and no timeout. A step
leaves the operation in flight the same, with no fewer bytes copied, or it is a step of its owner and ends it: lock Free,
no record, the owner Done. -/
def Obligations.AnOperationRunsToItsResponse : Prop :=
  ∀ (s t : State) (x : Txn), s.Inv → s.txn = some x → step s = .next t →
    (∃ y, t.txn = some y ∧ y = { x with i := y.i } ∧ x.i ≤ y.i ∧ t.lock = .held x.owner ∧ t.caller x.owner = .active) ∨
    (t.txn = none ∧ t.lock = .free ∧ (∃ st, t.caller x.owner = .done st) ∧
      ∃ m rest, s.schedule = m :: rest ∧ criticalMove x.owner m)

/-- R9, R94: no step changes the parameters N_CALLERS, ADDR_W and STATUS_EINVAL, none undoes INIT, and none but INIT
registers the handlers. -/
def Obligations.NoStepUndoesInit : Prop :=
  ∀ s t : State, step s = .next t →
    t.nCallers = s.nCallers ∧ t.addrW = s.addrW ∧ t.einval = s.einval ∧
    (s.initialised = true → t.initialised = true ∧ t.registration = s.registration) ∧
    (s.initialised = false → t.initialised = true → ∃ rest, s.schedule = .init :: rest)

/-- R7, R16: the block acts only on requests. With no move to come nothing changes (the model's reading, log 2). -/
def Obligations.WithoutAMoveNothingChanges : Prop :=
  ∀ s : State, s.schedule = [] → step s = .next s
end

