-- ==== Sys2Proof/Laws/Keyed.lean ====
section
/-! SUPPORT. Keyed lists: what a lookup gives after a change, and that every change keeps the keys rising; with it the
canonical form of the buffers and of the caller table. -/

namespace Sys2Proof.Machine

variable {α : Type}

@[simp] theorem keyedGet_nil (k : Nat) : keyedGet k ([] : List (Nat × α)) = none := rfl

/-- A read after a write to the same key gives the value written. -/
@[simp] theorem keyedGet_put_same (k : Nat) (v : α) (l : List (Nat × α)) : keyedGet k (keyedPut k v l) = some v := by
  induction l with
  | nil => simp [keyedPut, keyedGet]
  | cons e rest ih => unfold keyedPut; split_ifs <;> simp_all [keyedGet]

/-- A write leaves every other key alone. -/
theorem keyedGet_put_other {k j : Nat} (h : j ≠ k) (v : α) (l : List (Nat × α)) :
    keyedGet j (keyedPut k v l) = keyedGet j l := by
  induction l with
  | nil => simp [keyedPut, keyedGet, Ne.symm h]
  | cons e rest ih => unfold keyedPut; split_ifs <;> simp_all [keyedGet, Ne.symm h]

/-- Dropping a key leaves every other key alone. -/
theorem keyedGet_drop_other {k j : Nat} (h : j ≠ k) (l : List (Nat × α)) : keyedGet j (keyedDrop k l) = keyedGet j l := by
  induction l with
  | nil => rfl
  | cons e rest ih => unfold keyedDrop; split_ifs <;> simp_all [keyedGet, Ne.symm h]

/-- A value is found at a key only where the list holds that entry. -/
theorem mem_of_keyedGet {k : Nat} {v : α} {l : List (Nat × α)} (h : keyedGet k l = some v) : (k, v) ∈ l := by
  induction l with
  | nil => simp at h
  | cons e rest ih =>
    unfold keyedGet at h
    split_ifs at h with he
    · subst he; cases h; exact List.mem_cons_self
    · exact List.mem_cons_of_mem _ (ih h)

/-- Where every key of the list is larger, the key is not listed. -/
theorem keyedGet_eq_none {k : Nat} {l : List (Nat × α)} (h : ∀ e ∈ l, k < e.1) : keyedGet k l = none := by
  cases hg : keyedGet k l with
  | none => rfl
  | some v => exact absurd (h _ (mem_of_keyedGet hg)) (Nat.lt_irrefl k)

/-- A rising list finds each of its entries. -/
theorem keyedGet_of_mem {k : Nat} {v : α} {l : List (Nat × α)} (hl : Rising l) (h : (k, v) ∈ l) :
    keyedGet k l = some v := by
  induction l with
  | nil => cases h
  | cons e rest ih =>
    obtain ⟨h1, h2⟩ := List.pairwise_cons.1 hl
    rcases List.mem_cons.1 h with rfl | h
    · simp [keyedGet]
    · have := h1 _ h
      simp only [keyedGet]
      rw [if_neg (by simp at this; omega)]
      exact ih h2 h

/-- In a rising list a dropped key is gone. -/
theorem keyedGet_drop_same {l : List (Nat × α)} (hl : Rising l) (k : Nat) : keyedGet k (keyedDrop k l) = none := by
  induction l with
  | nil => rfl
  | cons e rest ih =>
    obtain ⟨h1, h2⟩ := List.pairwise_cons.1 hl
    unfold keyedDrop
    split_ifs with he
    · exact keyedGet_eq_none fun e' h' => he ▸ h1 e' h'
    · simpa [keyedGet, he] using ih h2

/-- The second of two writes to the same key is the one that counts. -/
@[simp] theorem keyedPut_put (k : Nat) (v w : α) (l : List (Nat × α)) : keyedPut k v (keyedPut k w l) = keyedPut k v l := by
  induction l with
  | nil => simp [keyedPut]
  | cons e rest ih =>
    by_cases h1 : k < e.1
    · simp [keyedPut, h1]
    · by_cases h2 : e.1 = k <;> simp [keyedPut, h1, h2, ih]

/-- An entry of the changed list is the new one or an old one. -/
theorem mem_keyedPut {k : Nat} {v : α} {l : List (Nat × α)} {e : Nat × α} (h : e ∈ keyedPut k v l) :
    e = (k, v) ∨ e ∈ l := by
  induction l with
  | nil => simpa [keyedPut] using h
  | cons d rest ih =>
    unfold keyedPut at h
    split_ifs at h
    · exact List.mem_cons.1 h
    · rcases List.mem_cons.1 h with h | h
      · exact .inl h
      · exact .inr (List.mem_cons_of_mem _ h)
    · rcases List.mem_cons.1 h with h | h
      · exact .inr (h ▸ List.mem_cons_self)
      · exact (ih h).imp id (List.mem_cons_of_mem _)

/-- An entry that is left was there before. -/
theorem mem_keyedDrop {k : Nat} {l : List (Nat × α)} {e : Nat × α} (h : e ∈ keyedDrop k l) : e ∈ l := by
  induction l with
  | nil => exact h
  | cons d rest ih =>
    unfold keyedDrop at h
    split_ifs at h
    · exact List.mem_cons_of_mem _ h
    · rcases List.mem_cons.1 h with h | h
      · exact h ▸ List.mem_cons_self
      · exact List.mem_cons_of_mem _ (ih h)

/-- A write keeps the keys rising. -/
theorem rising_put {l : List (Nat × α)} (hl : Rising l) (k : Nat) (v : α) : Rising (keyedPut k v l) := by
  induction l with
  | nil => simp [keyedPut, Rising]
  | cons e rest ih =>
    obtain ⟨h1, h2⟩ := List.pairwise_cons.1 hl
    unfold keyedPut
    split_ifs with hlt heq
    · refine List.pairwise_cons.2 ⟨fun e' h' => ?_, hl⟩
      rcases List.mem_cons.1 h' with rfl | h'
      · exact hlt
      · exact Nat.lt_trans hlt (h1 e' h')
    · exact List.pairwise_cons.2 ⟨fun e' h' => heq ▸ h1 e' h', h2⟩
    · refine List.pairwise_cons.2 ⟨fun e' h' => ?_, ih h2⟩
      rcases mem_keyedPut h' with rfl | h'
      · exact Nat.lt_of_le_of_ne (Nat.le_of_not_lt hlt) heq
      · exact h1 e' h'

/-- Dropping a key keeps the keys rising. -/
theorem rising_drop {l : List (Nat × α)} (hl : Rising l) (k : Nat) : Rising (keyedDrop k l) := by
  induction l with
  | nil => exact hl
  | cons e rest ih =>
    obtain ⟨h1, h2⟩ := List.pairwise_cons.1 hl
    unfold keyedDrop
    split_ifs
    · exact h2
    · exact List.pairwise_cons.2 ⟨fun e' h' => h1 e' (mem_keyedDrop h'), ih h2⟩

/-- A byte stored at an address of ADDR_W bits keeps a buffer's canonical form. -/
theorem Memory.wf_store {w : Nat} {m : Memory} (h : Memory.wf w m) {a : Addr} (ha : a < 2 ^ w) (v : Byte) :
    Memory.wf w (m.store a v) := by
  refine ⟨rising_put h.1 _ _, fun e he => ?_⟩
  rcases mem_keyedPut he with rfl | he
  · exact ha
  · exact h.2 e he

/-- A MemWrite to an address of ADDR_W bits, however it is answered, keeps a buffer's canonical form. -/
theorem Memory.wf_afterPut {w : Nat} {m : Memory} (h : Memory.wf w m) {a : Addr} (ha : a < 2 ^ w) (v : Byte)
    (ans : PutAnswer) : Memory.wf w (m.afterPut a v ans) := by
  cases ans with
  | ok => exact Memory.wf_store h ha v
  | fail _ => exact h

/-- Reset's buffers, and those before INIT, are in canonical form: they list nothing. -/
theorem State.reset_memory_wf (w : Nat) : Memory.wf w State.reset.kernel ∧ Memory.wf w State.reset.user := by
  simp [State.reset, Memory.wf]

/-- A changed caller table keeps its keys rising. -/
theorem rising_callersSet {l : List (CallerId × CallerState)} (h : Rising l) (c : CallerId) (v : CallerState) :
    Rising (callersSet c v l) := by
  unfold callersSet
  split_ifs
  · exact rising_drop h c
  · exact rising_put h c v

/-- An entry of a changed caller table is the new one, which is not Idle, or an old one. -/
theorem mem_callersSet {l : List (CallerId × CallerState)} {c : CallerId} {v : CallerState} {e : CallerId × CallerState}
    (h : e ∈ callersSet c v l) : (e = (c, v) ∧ v ≠ .idle) ∨ e ∈ l := by
  unfold callersSet at h
  split_ifs at h with hv
  · exact .inr (mem_keyedDrop h)
  · exact (mem_keyedPut h).imp (fun he => ⟨he, hv⟩) id

end Sys2Proof.Machine
end

