-- ==== Sys2Proof/Laws/State.lean ====
section
/-! SUPPORT. What each field of State is after each of the named updates, all by rfl. -/

namespace Sys2Proof.Machine

@[simp] theorem State.setSeed_seed (s : State) (v : Byte) : (s.setSeed v).seed = v := rfl
@[simp] theorem State.setSeed_lock (s : State) (v : Byte) : (s.setSeed v).lock = s.lock := rfl
@[simp] theorem State.setSeed_txn (s : State) (v : Byte) : (s.setSeed v).txn = s.txn := rfl
@[simp] theorem State.setSeed_callers (s : State) (v : Byte) : (s.setSeed v).callers = s.callers := rfl
@[simp] theorem State.setSeed_initialised (s : State) (v : Byte) : (s.setSeed v).initialised = s.initialised := rfl
@[simp] theorem State.setSeed_registration (s : State) (v : Byte) : (s.setSeed v).registration = s.registration := rfl
@[simp] theorem State.setSeed_nCallers (s : State) (v : Byte) : (s.setSeed v).nCallers = s.nCallers := rfl
@[simp] theorem State.setSeed_addrW (s : State) (v : Byte) : (s.setSeed v).addrW = s.addrW := rfl
@[simp] theorem State.setSeed_einval (s : State) (v : Byte) : (s.setSeed v).einval = s.einval := rfl
@[simp] theorem State.setSeed_kernel (s : State) (v : Byte) : (s.setSeed v).kernel = s.kernel := rfl
@[simp] theorem State.setSeed_user (s : State) (v : Byte) : (s.setSeed v).user = s.user := rfl
@[simp] theorem State.setSeed_copies (s : State) (v : Byte) : (s.setSeed v).copies = s.copies := rfl
@[simp] theorem State.setSeed_received (s : State) (v : Byte) : (s.setSeed v).received = s.received := rfl
@[simp] theorem State.setSeed_coreLog (s : State) (v : Byte) : (s.setSeed v).coreLog = s.coreLog := rfl
@[simp] theorem State.setSeed_schedule (s : State) (v : Byte) : (s.setSeed v).schedule = s.schedule := rfl
@[simp] theorem State.setSeed_puts (s : State) (v : Byte) : (s.setSeed v).puts = s.puts := rfl
@[simp] theorem State.setSeed_gets (s : State) (v : Byte) : (s.setSeed v).gets = s.gets := rfl
@[simp] theorem State.setSeed_draws (s : State) (v : Byte) : (s.setSeed v).draws = s.draws := rfl
@[simp] theorem State.setSeed_requester (s : State) (v : Byte) : (s.setSeed v).requester = s.requester := rfl

@[simp] theorem State.setCaller_seed (s : State) (c : CallerId) (v : CallerState) : (s.setCaller c v).seed = s.seed := rfl
@[simp] theorem State.setCaller_lock (s : State) (c : CallerId) (v : CallerState) : (s.setCaller c v).lock = s.lock := rfl
@[simp] theorem State.setCaller_txn (s : State) (c : CallerId) (v : CallerState) : (s.setCaller c v).txn = s.txn := rfl
@[simp] theorem State.setCaller_callers (s : State) (c : CallerId) (v : CallerState) : (s.setCaller c v).callers = callersSet c v s.callers := rfl
@[simp] theorem State.setCaller_initialised (s : State) (c : CallerId) (v : CallerState) : (s.setCaller c v).initialised = s.initialised := rfl
@[simp] theorem State.setCaller_registration (s : State) (c : CallerId) (v : CallerState) : (s.setCaller c v).registration = s.registration := rfl
@[simp] theorem State.setCaller_nCallers (s : State) (c : CallerId) (v : CallerState) : (s.setCaller c v).nCallers = s.nCallers := rfl
@[simp] theorem State.setCaller_addrW (s : State) (c : CallerId) (v : CallerState) : (s.setCaller c v).addrW = s.addrW := rfl
@[simp] theorem State.setCaller_einval (s : State) (c : CallerId) (v : CallerState) : (s.setCaller c v).einval = s.einval := rfl
@[simp] theorem State.setCaller_kernel (s : State) (c : CallerId) (v : CallerState) : (s.setCaller c v).kernel = s.kernel := rfl
@[simp] theorem State.setCaller_user (s : State) (c : CallerId) (v : CallerState) : (s.setCaller c v).user = s.user := rfl
@[simp] theorem State.setCaller_copies (s : State) (c : CallerId) (v : CallerState) : (s.setCaller c v).copies = s.copies := rfl
@[simp] theorem State.setCaller_received (s : State) (c : CallerId) (v : CallerState) : (s.setCaller c v).received = s.received := rfl
@[simp] theorem State.setCaller_coreLog (s : State) (c : CallerId) (v : CallerState) : (s.setCaller c v).coreLog = s.coreLog := rfl
@[simp] theorem State.setCaller_schedule (s : State) (c : CallerId) (v : CallerState) : (s.setCaller c v).schedule = s.schedule := rfl
@[simp] theorem State.setCaller_puts (s : State) (c : CallerId) (v : CallerState) : (s.setCaller c v).puts = s.puts := rfl
@[simp] theorem State.setCaller_gets (s : State) (c : CallerId) (v : CallerState) : (s.setCaller c v).gets = s.gets := rfl
@[simp] theorem State.setCaller_draws (s : State) (c : CallerId) (v : CallerState) : (s.setCaller c v).draws = s.draws := rfl
@[simp] theorem State.setCaller_requester (s : State) (c : CallerId) (v : CallerState) : (s.setCaller c v).requester = s.requester := rfl

@[simp] theorem State.acquire_seed (s : State) (c : CallerId) (q : Request) : (s.acquire c q).seed = s.seed := rfl
@[simp] theorem State.acquire_lock (s : State) (c : CallerId) (q : Request) : (s.acquire c q).lock = .held c := rfl
@[simp] theorem State.acquire_txn (s : State) (c : CallerId) (q : Request) : (s.acquire c q).txn = some (txnOf c q) := rfl
@[simp] theorem State.acquire_callers (s : State) (c : CallerId) (q : Request) : (s.acquire c q).callers = callersSet c .active s.callers := rfl
@[simp] theorem State.acquire_initialised (s : State) (c : CallerId) (q : Request) : (s.acquire c q).initialised = s.initialised := rfl
@[simp] theorem State.acquire_registration (s : State) (c : CallerId) (q : Request) : (s.acquire c q).registration = s.registration := rfl
@[simp] theorem State.acquire_nCallers (s : State) (c : CallerId) (q : Request) : (s.acquire c q).nCallers = s.nCallers := rfl
@[simp] theorem State.acquire_addrW (s : State) (c : CallerId) (q : Request) : (s.acquire c q).addrW = s.addrW := rfl
@[simp] theorem State.acquire_einval (s : State) (c : CallerId) (q : Request) : (s.acquire c q).einval = s.einval := rfl
@[simp] theorem State.acquire_kernel (s : State) (c : CallerId) (q : Request) : (s.acquire c q).kernel = s.kernel := rfl
@[simp] theorem State.acquire_user (s : State) (c : CallerId) (q : Request) : (s.acquire c q).user = s.user := rfl
@[simp] theorem State.acquire_copies (s : State) (c : CallerId) (q : Request) : (s.acquire c q).copies = s.copies := rfl
@[simp] theorem State.acquire_received (s : State) (c : CallerId) (q : Request) : (s.acquire c q).received = s.received := rfl
@[simp] theorem State.acquire_coreLog (s : State) (c : CallerId) (q : Request) : (s.acquire c q).coreLog = s.coreLog := rfl
@[simp] theorem State.acquire_schedule (s : State) (c : CallerId) (q : Request) : (s.acquire c q).schedule = s.schedule := rfl
@[simp] theorem State.acquire_puts (s : State) (c : CallerId) (q : Request) : (s.acquire c q).puts = s.puts := rfl
@[simp] theorem State.acquire_gets (s : State) (c : CallerId) (q : Request) : (s.acquire c q).gets = s.gets := rfl
@[simp] theorem State.acquire_draws (s : State) (c : CallerId) (q : Request) : (s.acquire c q).draws = s.draws := rfl
@[simp] theorem State.acquire_requester (s : State) (c : CallerId) (q : Request) : (s.acquire c q).requester = s.requester := rfl

@[simp] theorem State.finish_seed (s : State) (c : CallerId) (st : Status) : (s.finish c st).seed = s.seed := rfl
@[simp] theorem State.finish_lock (s : State) (c : CallerId) (st : Status) : (s.finish c st).lock = .free := rfl
@[simp] theorem State.finish_txn (s : State) (c : CallerId) (st : Status) : (s.finish c st).txn = none := rfl
@[simp] theorem State.finish_callers (s : State) (c : CallerId) (st : Status) : (s.finish c st).callers = callersSet c (.done st) s.callers := rfl
@[simp] theorem State.finish_initialised (s : State) (c : CallerId) (st : Status) : (s.finish c st).initialised = s.initialised := rfl
@[simp] theorem State.finish_registration (s : State) (c : CallerId) (st : Status) : (s.finish c st).registration = s.registration := rfl
@[simp] theorem State.finish_nCallers (s : State) (c : CallerId) (st : Status) : (s.finish c st).nCallers = s.nCallers := rfl
@[simp] theorem State.finish_addrW (s : State) (c : CallerId) (st : Status) : (s.finish c st).addrW = s.addrW := rfl
@[simp] theorem State.finish_einval (s : State) (c : CallerId) (st : Status) : (s.finish c st).einval = s.einval := rfl
@[simp] theorem State.finish_kernel (s : State) (c : CallerId) (st : Status) : (s.finish c st).kernel = s.kernel := rfl
@[simp] theorem State.finish_user (s : State) (c : CallerId) (st : Status) : (s.finish c st).user = s.user := rfl
@[simp] theorem State.finish_copies (s : State) (c : CallerId) (st : Status) : (s.finish c st).copies = s.copies := rfl
@[simp] theorem State.finish_received (s : State) (c : CallerId) (st : Status) : (s.finish c st).received = s.received := rfl
@[simp] theorem State.finish_coreLog (s : State) (c : CallerId) (st : Status) : (s.finish c st).coreLog = s.coreLog := rfl
@[simp] theorem State.finish_schedule (s : State) (c : CallerId) (st : Status) : (s.finish c st).schedule = s.schedule := rfl
@[simp] theorem State.finish_puts (s : State) (c : CallerId) (st : Status) : (s.finish c st).puts = s.puts := rfl
@[simp] theorem State.finish_gets (s : State) (c : CallerId) (st : Status) : (s.finish c st).gets = s.gets := rfl
@[simp] theorem State.finish_draws (s : State) (c : CallerId) (st : Status) : (s.finish c st).draws = s.draws := rfl
@[simp] theorem State.finish_requester (s : State) (c : CallerId) (st : Status) : (s.finish c st).requester = s.requester := rfl

@[simp] theorem State.memWrite_seed (s : State) (sp : Space) (a : Addr) (v : Byte) : (s.memWrite sp a v).seed = s.seed := rfl
@[simp] theorem State.memWrite_lock (s : State) (sp : Space) (a : Addr) (v : Byte) : (s.memWrite sp a v).lock = s.lock := rfl
@[simp] theorem State.memWrite_txn (s : State) (sp : Space) (a : Addr) (v : Byte) : (s.memWrite sp a v).txn = s.txn := rfl
@[simp] theorem State.memWrite_callers (s : State) (sp : Space) (a : Addr) (v : Byte) : (s.memWrite sp a v).callers = s.callers := rfl
@[simp] theorem State.memWrite_initialised (s : State) (sp : Space) (a : Addr) (v : Byte) : (s.memWrite sp a v).initialised = s.initialised := rfl
@[simp] theorem State.memWrite_registration (s : State) (sp : Space) (a : Addr) (v : Byte) : (s.memWrite sp a v).registration = s.registration := rfl
@[simp] theorem State.memWrite_nCallers (s : State) (sp : Space) (a : Addr) (v : Byte) : (s.memWrite sp a v).nCallers = s.nCallers := rfl
@[simp] theorem State.memWrite_addrW (s : State) (sp : Space) (a : Addr) (v : Byte) : (s.memWrite sp a v).addrW = s.addrW := rfl
@[simp] theorem State.memWrite_einval (s : State) (sp : Space) (a : Addr) (v : Byte) : (s.memWrite sp a v).einval = s.einval := rfl
@[simp] theorem State.memWrite_kernel (s : State) (sp : Space) (a : Addr) (v : Byte) : (s.memWrite sp a v).kernel = if sp = .kernel then s.kernel.afterPut a v s.putAnswer else s.kernel := rfl
@[simp] theorem State.memWrite_user (s : State) (sp : Space) (a : Addr) (v : Byte) : (s.memWrite sp a v).user = if sp = .user then s.user.afterPut a v s.putAnswer else s.user := rfl
@[simp] theorem State.memWrite_copies (s : State) (sp : Space) (a : Addr) (v : Byte) : (s.memWrite sp a v).copies = s.copies ++ [.memWrite sp a v s.putAnswer] := rfl
@[simp] theorem State.memWrite_received (s : State) (sp : Space) (a : Addr) (v : Byte) : (s.memWrite sp a v).received = s.received := rfl
@[simp] theorem State.memWrite_coreLog (s : State) (sp : Space) (a : Addr) (v : Byte) : (s.memWrite sp a v).coreLog = s.coreLog := rfl
@[simp] theorem State.memWrite_schedule (s : State) (sp : Space) (a : Addr) (v : Byte) : (s.memWrite sp a v).schedule = s.schedule := rfl
@[simp] theorem State.memWrite_puts (s : State) (sp : Space) (a : Addr) (v : Byte) : (s.memWrite sp a v).puts = s.puts.tail := rfl
@[simp] theorem State.memWrite_gets (s : State) (sp : Space) (a : Addr) (v : Byte) : (s.memWrite sp a v).gets = s.gets := rfl
@[simp] theorem State.memWrite_draws (s : State) (sp : Space) (a : Addr) (v : Byte) : (s.memWrite sp a v).draws = s.draws + 1 := rfl
@[simp] theorem State.memWrite_requester (s : State) (sp : Space) (a : Addr) (v : Byte) : (s.memWrite sp a v).requester = s.requester := rfl

@[simp] theorem State.memRead_seed (s : State) (sp : Space) (a : Addr) : (s.memRead sp a).seed = s.seed := rfl
@[simp] theorem State.memRead_lock (s : State) (sp : Space) (a : Addr) : (s.memRead sp a).lock = s.lock := rfl
@[simp] theorem State.memRead_txn (s : State) (sp : Space) (a : Addr) : (s.memRead sp a).txn = s.txn := rfl
@[simp] theorem State.memRead_callers (s : State) (sp : Space) (a : Addr) : (s.memRead sp a).callers = s.callers := rfl
@[simp] theorem State.memRead_initialised (s : State) (sp : Space) (a : Addr) : (s.memRead sp a).initialised = s.initialised := rfl
@[simp] theorem State.memRead_registration (s : State) (sp : Space) (a : Addr) : (s.memRead sp a).registration = s.registration := rfl
@[simp] theorem State.memRead_nCallers (s : State) (sp : Space) (a : Addr) : (s.memRead sp a).nCallers = s.nCallers := rfl
@[simp] theorem State.memRead_addrW (s : State) (sp : Space) (a : Addr) : (s.memRead sp a).addrW = s.addrW := rfl
@[simp] theorem State.memRead_einval (s : State) (sp : Space) (a : Addr) : (s.memRead sp a).einval = s.einval := rfl
@[simp] theorem State.memRead_kernel (s : State) (sp : Space) (a : Addr) : (s.memRead sp a).kernel = s.kernel := rfl
@[simp] theorem State.memRead_user (s : State) (sp : Space) (a : Addr) : (s.memRead sp a).user = s.user := rfl
@[simp] theorem State.memRead_copies (s : State) (sp : Space) (a : Addr) : (s.memRead sp a).copies = s.copies ++ [.memRead sp a s.getAnswer] := rfl
@[simp] theorem State.memRead_received (s : State) (sp : Space) (a : Addr) : (s.memRead sp a).received = s.received := rfl
@[simp] theorem State.memRead_coreLog (s : State) (sp : Space) (a : Addr) : (s.memRead sp a).coreLog = s.coreLog := rfl
@[simp] theorem State.memRead_schedule (s : State) (sp : Space) (a : Addr) : (s.memRead sp a).schedule = s.schedule := rfl
@[simp] theorem State.memRead_puts (s : State) (sp : Space) (a : Addr) : (s.memRead sp a).puts = s.puts := rfl
@[simp] theorem State.memRead_gets (s : State) (sp : Space) (a : Addr) : (s.memRead sp a).gets = s.gets.tail := rfl
@[simp] theorem State.memRead_draws (s : State) (sp : Space) (a : Addr) : (s.memRead sp a).draws = s.draws + 1 := rfl
@[simp] theorem State.memRead_requester (s : State) (sp : Space) (a : Addr) : (s.memRead sp a).requester = s.requester := rfl

@[simp] theorem State.copyOut_seed (s : State) (sp : Space) (a : Addr) : (s.copyOut sp a).seed = lfsrNext s.seed := rfl
@[simp] theorem State.copyOut_lock (s : State) (sp : Space) (a : Addr) : (s.copyOut sp a).lock = s.lock := rfl
@[simp] theorem State.copyOut_txn (s : State) (sp : Space) (a : Addr) : (s.copyOut sp a).txn = s.txn := rfl
@[simp] theorem State.copyOut_callers (s : State) (sp : Space) (a : Addr) : (s.copyOut sp a).callers = s.callers := rfl
@[simp] theorem State.copyOut_initialised (s : State) (sp : Space) (a : Addr) : (s.copyOut sp a).initialised = s.initialised := rfl
@[simp] theorem State.copyOut_registration (s : State) (sp : Space) (a : Addr) : (s.copyOut sp a).registration = s.registration := rfl
@[simp] theorem State.copyOut_nCallers (s : State) (sp : Space) (a : Addr) : (s.copyOut sp a).nCallers = s.nCallers := rfl
@[simp] theorem State.copyOut_addrW (s : State) (sp : Space) (a : Addr) : (s.copyOut sp a).addrW = s.addrW := rfl
@[simp] theorem State.copyOut_einval (s : State) (sp : Space) (a : Addr) : (s.copyOut sp a).einval = s.einval := rfl
@[simp] theorem State.copyOut_kernel (s : State) (sp : Space) (a : Addr) : (s.copyOut sp a).kernel = if sp = .kernel then s.kernel.afterPut a (lfsrNext s.seed) s.putAnswer else s.kernel := rfl
@[simp] theorem State.copyOut_user (s : State) (sp : Space) (a : Addr) : (s.copyOut sp a).user = if sp = .user then s.user.afterPut a (lfsrNext s.seed) s.putAnswer else s.user := rfl
@[simp] theorem State.copyOut_copies (s : State) (sp : Space) (a : Addr) : (s.copyOut sp a).copies = s.copies ++ [.memWrite sp a (lfsrNext s.seed) s.putAnswer] := rfl
@[simp] theorem State.copyOut_received (s : State) (sp : Space) (a : Addr) : (s.copyOut sp a).received = s.received := rfl
@[simp] theorem State.copyOut_coreLog (s : State) (sp : Space) (a : Addr) : (s.copyOut sp a).coreLog = s.coreLog := rfl
@[simp] theorem State.copyOut_schedule (s : State) (sp : Space) (a : Addr) : (s.copyOut sp a).schedule = s.schedule := rfl
@[simp] theorem State.copyOut_puts (s : State) (sp : Space) (a : Addr) : (s.copyOut sp a).puts = s.puts.tail := rfl
@[simp] theorem State.copyOut_gets (s : State) (sp : Space) (a : Addr) : (s.copyOut sp a).gets = s.gets := rfl
@[simp] theorem State.copyOut_draws (s : State) (sp : Space) (a : Addr) : (s.copyOut sp a).draws = s.draws + 1 := rfl
@[simp] theorem State.copyOut_requester (s : State) (sp : Space) (a : Addr) : (s.copyOut sp a).requester = s.requester := rfl

@[simp] theorem State.setTxn_seed (s : State) (x : Option Txn) : (s.setTxn x).seed = s.seed := rfl
@[simp] theorem State.setTxn_lock (s : State) (x : Option Txn) : (s.setTxn x).lock = s.lock := rfl
@[simp] theorem State.setTxn_txn (s : State) (x : Option Txn) : (s.setTxn x).txn = x := rfl
@[simp] theorem State.setTxn_callers (s : State) (x : Option Txn) : (s.setTxn x).callers = s.callers := rfl
@[simp] theorem State.setTxn_initialised (s : State) (x : Option Txn) : (s.setTxn x).initialised = s.initialised := rfl
@[simp] theorem State.setTxn_registration (s : State) (x : Option Txn) : (s.setTxn x).registration = s.registration := rfl
@[simp] theorem State.setTxn_nCallers (s : State) (x : Option Txn) : (s.setTxn x).nCallers = s.nCallers := rfl
@[simp] theorem State.setTxn_addrW (s : State) (x : Option Txn) : (s.setTxn x).addrW = s.addrW := rfl
@[simp] theorem State.setTxn_einval (s : State) (x : Option Txn) : (s.setTxn x).einval = s.einval := rfl
@[simp] theorem State.setTxn_kernel (s : State) (x : Option Txn) : (s.setTxn x).kernel = s.kernel := rfl
@[simp] theorem State.setTxn_user (s : State) (x : Option Txn) : (s.setTxn x).user = s.user := rfl
@[simp] theorem State.setTxn_copies (s : State) (x : Option Txn) : (s.setTxn x).copies = s.copies := rfl
@[simp] theorem State.setTxn_received (s : State) (x : Option Txn) : (s.setTxn x).received = s.received := rfl
@[simp] theorem State.setTxn_coreLog (s : State) (x : Option Txn) : (s.setTxn x).coreLog = s.coreLog := rfl
@[simp] theorem State.setTxn_schedule (s : State) (x : Option Txn) : (s.setTxn x).schedule = s.schedule := rfl
@[simp] theorem State.setTxn_puts (s : State) (x : Option Txn) : (s.setTxn x).puts = s.puts := rfl
@[simp] theorem State.setTxn_gets (s : State) (x : Option Txn) : (s.setTxn x).gets = s.gets := rfl
@[simp] theorem State.setTxn_draws (s : State) (x : Option Txn) : (s.setTxn x).draws = s.draws := rfl
@[simp] theorem State.setTxn_requester (s : State) (x : Option Txn) : (s.setTxn x).requester = s.requester := rfl

@[simp] theorem State.receive_seed (s : State) (c : CallerId) (st : Status) : (s.receive c st).seed = s.seed := rfl
@[simp] theorem State.receive_lock (s : State) (c : CallerId) (st : Status) : (s.receive c st).lock = s.lock := rfl
@[simp] theorem State.receive_txn (s : State) (c : CallerId) (st : Status) : (s.receive c st).txn = s.txn := rfl
@[simp] theorem State.receive_callers (s : State) (c : CallerId) (st : Status) : (s.receive c st).callers = s.callers := rfl
@[simp] theorem State.receive_initialised (s : State) (c : CallerId) (st : Status) : (s.receive c st).initialised = s.initialised := rfl
@[simp] theorem State.receive_registration (s : State) (c : CallerId) (st : Status) : (s.receive c st).registration = s.registration := rfl
@[simp] theorem State.receive_nCallers (s : State) (c : CallerId) (st : Status) : (s.receive c st).nCallers = s.nCallers := rfl
@[simp] theorem State.receive_addrW (s : State) (c : CallerId) (st : Status) : (s.receive c st).addrW = s.addrW := rfl
@[simp] theorem State.receive_einval (s : State) (c : CallerId) (st : Status) : (s.receive c st).einval = s.einval := rfl
@[simp] theorem State.receive_kernel (s : State) (c : CallerId) (st : Status) : (s.receive c st).kernel = s.kernel := rfl
@[simp] theorem State.receive_user (s : State) (c : CallerId) (st : Status) : (s.receive c st).user = s.user := rfl
@[simp] theorem State.receive_copies (s : State) (c : CallerId) (st : Status) : (s.receive c st).copies = s.copies := rfl
@[simp] theorem State.receive_received (s : State) (c : CallerId) (st : Status) : (s.receive c st).received = s.received ++ [(c, st)] := rfl
@[simp] theorem State.receive_coreLog (s : State) (c : CallerId) (st : Status) : (s.receive c st).coreLog = s.coreLog := rfl
@[simp] theorem State.receive_schedule (s : State) (c : CallerId) (st : Status) : (s.receive c st).schedule = s.schedule := rfl
@[simp] theorem State.receive_puts (s : State) (c : CallerId) (st : Status) : (s.receive c st).puts = s.puts := rfl
@[simp] theorem State.receive_gets (s : State) (c : CallerId) (st : Status) : (s.receive c st).gets = s.gets := rfl
@[simp] theorem State.receive_draws (s : State) (c : CallerId) (st : Status) : (s.receive c st).draws = s.draws := rfl
@[simp] theorem State.receive_requester (s : State) (c : CallerId) (st : Status) : (s.receive c st).requester = s.requester := rfl

@[simp] theorem State.setSchedule_seed (s : State) (ms : List Move) : (s.setSchedule ms).seed = s.seed := rfl
@[simp] theorem State.setSchedule_lock (s : State) (ms : List Move) : (s.setSchedule ms).lock = s.lock := rfl
@[simp] theorem State.setSchedule_txn (s : State) (ms : List Move) : (s.setSchedule ms).txn = s.txn := rfl
@[simp] theorem State.setSchedule_callers (s : State) (ms : List Move) : (s.setSchedule ms).callers = s.callers := rfl
@[simp] theorem State.setSchedule_initialised (s : State) (ms : List Move) : (s.setSchedule ms).initialised = s.initialised := rfl
@[simp] theorem State.setSchedule_registration (s : State) (ms : List Move) : (s.setSchedule ms).registration = s.registration := rfl
@[simp] theorem State.setSchedule_nCallers (s : State) (ms : List Move) : (s.setSchedule ms).nCallers = s.nCallers := rfl
@[simp] theorem State.setSchedule_addrW (s : State) (ms : List Move) : (s.setSchedule ms).addrW = s.addrW := rfl
@[simp] theorem State.setSchedule_einval (s : State) (ms : List Move) : (s.setSchedule ms).einval = s.einval := rfl
@[simp] theorem State.setSchedule_kernel (s : State) (ms : List Move) : (s.setSchedule ms).kernel = s.kernel := rfl
@[simp] theorem State.setSchedule_user (s : State) (ms : List Move) : (s.setSchedule ms).user = s.user := rfl
@[simp] theorem State.setSchedule_copies (s : State) (ms : List Move) : (s.setSchedule ms).copies = s.copies := rfl
@[simp] theorem State.setSchedule_received (s : State) (ms : List Move) : (s.setSchedule ms).received = s.received := rfl
@[simp] theorem State.setSchedule_coreLog (s : State) (ms : List Move) : (s.setSchedule ms).coreLog = s.coreLog := rfl
@[simp] theorem State.setSchedule_schedule (s : State) (ms : List Move) : (s.setSchedule ms).schedule = ms := rfl
@[simp] theorem State.setSchedule_puts (s : State) (ms : List Move) : (s.setSchedule ms).puts = s.puts := rfl
@[simp] theorem State.setSchedule_gets (s : State) (ms : List Move) : (s.setSchedule ms).gets = s.gets := rfl
@[simp] theorem State.setSchedule_draws (s : State) (ms : List Move) : (s.setSchedule ms).draws = s.draws := rfl
@[simp] theorem State.setSchedule_requester (s : State) (ms : List Move) : (s.setSchedule ms).requester = s.requester := rfl

@[simp] theorem State.setRequester_seed (s : State) (c : CallerId) : (s.setRequester c).seed = s.seed := rfl
@[simp] theorem State.setRequester_lock (s : State) (c : CallerId) : (s.setRequester c).lock = s.lock := rfl
@[simp] theorem State.setRequester_txn (s : State) (c : CallerId) : (s.setRequester c).txn = s.txn := rfl
@[simp] theorem State.setRequester_callers (s : State) (c : CallerId) : (s.setRequester c).callers = s.callers := rfl
@[simp] theorem State.setRequester_initialised (s : State) (c : CallerId) : (s.setRequester c).initialised = s.initialised := rfl
@[simp] theorem State.setRequester_registration (s : State) (c : CallerId) : (s.setRequester c).registration = s.registration := rfl
@[simp] theorem State.setRequester_nCallers (s : State) (c : CallerId) : (s.setRequester c).nCallers = s.nCallers := rfl
@[simp] theorem State.setRequester_addrW (s : State) (c : CallerId) : (s.setRequester c).addrW = s.addrW := rfl
@[simp] theorem State.setRequester_einval (s : State) (c : CallerId) : (s.setRequester c).einval = s.einval := rfl
@[simp] theorem State.setRequester_kernel (s : State) (c : CallerId) : (s.setRequester c).kernel = s.kernel := rfl
@[simp] theorem State.setRequester_user (s : State) (c : CallerId) : (s.setRequester c).user = s.user := rfl
@[simp] theorem State.setRequester_copies (s : State) (c : CallerId) : (s.setRequester c).copies = s.copies := rfl
@[simp] theorem State.setRequester_received (s : State) (c : CallerId) : (s.setRequester c).received = s.received := rfl
@[simp] theorem State.setRequester_coreLog (s : State) (c : CallerId) : (s.setRequester c).coreLog = s.coreLog := rfl
@[simp] theorem State.setRequester_schedule (s : State) (c : CallerId) : (s.setRequester c).schedule = s.schedule := rfl
@[simp] theorem State.setRequester_puts (s : State) (c : CallerId) : (s.setRequester c).puts = s.puts := rfl
@[simp] theorem State.setRequester_gets (s : State) (c : CallerId) : (s.setRequester c).gets = s.gets := rfl
@[simp] theorem State.setRequester_draws (s : State) (c : CallerId) : (s.setRequester c).draws = s.draws := rfl
@[simp] theorem State.setRequester_requester (s : State) (c : CallerId) : (s.setRequester c).requester = c := rfl

end Sys2Proof.Machine
end

