-- ==== Sys2Proof/Laws/Ops.lean ====
section
/-! SUPPORT. What each shared operation can do: the caller table, the buffers and the answers after each of the named
updates, and one lemma for each step of R49. -/

namespace Sys2Proof.Machine

/-! The caller table. -/

/-- cs[c] after cs[c] <- v, for a v other than Idle. -/
theorem State.caller_set_same {s : State} {l : List (CallerId × CallerState)} {c : CallerId} {v : CallerState}
    (hv : v ≠ .idle) (hs : s.callers = callersSet c v l) : s.caller c = v := by
  simp [State.caller, hs, callersSet, hv]

/-- cs[c] after cs[c] <- Idle, in a table whose keys rise. -/
theorem State.caller_set_idle {s : State} {l : List (CallerId × CallerState)} {c : CallerId} (hl : Rising l)
    (hs : s.callers = callersSet c .idle l) : s.caller c = .idle := by
  simp [State.caller, hs, callersSet, keyedGet_drop_same hl]

/-- cs[d] after a change of cs[c], for another caller d. -/
theorem State.caller_set_other {s s' : State} {c d : CallerId} {v : CallerState} (hd : d ≠ c)
    (hs : s'.callers = callersSet c v s.callers) : s'.caller d = s.caller d := by
  simp only [State.caller, hs, callersSet]
  split_ifs
  · rw [keyedGet_drop_other hd]
  · rw [keyedGet_put_other hd]

/-- States with the same table have the same callers. -/
theorem State.caller_congr {s s' : State} (h : s'.callers = s.callers) (c : CallerId) : s'.caller c = s.caller c := by
  simp [State.caller, h]

@[simp] theorem State.setSeed_caller (s : State) (v : Byte) (c : CallerId) : (s.setSeed v).caller c = s.caller c := rfl
@[simp] theorem State.memRead_caller (s : State) (sp : Space) (a : Addr) (c : CallerId) :
    (s.memRead sp a).caller c = s.caller c := rfl
@[simp] theorem State.copyOut_caller (s : State) (sp : Space) (a : Addr) (c : CallerId) :
    (s.copyOut sp a).caller c = s.caller c := rfl

@[simp] theorem State.setTxn_caller (s : State) (x : Option Txn) (c : CallerId) : (s.setTxn x).caller c = s.caller c := rfl
@[simp] theorem State.receive_caller (s : State) (d : CallerId) (st : Status) (c : CallerId) : (s.receive d st).caller c = s.caller c := rfl
@[simp] theorem State.setSchedule_caller (s : State) (ms : List Move) (c : CallerId) : (s.setSchedule ms).caller c = s.caller c := rfl
@[simp] theorem State.setRequester_caller (s : State) (d : CallerId) (c : CallerId) : (s.setRequester d).caller c = s.caller c := rfl

@[simp] theorem State.finish_caller_same (s : State) (c : CallerId) (st : Status) :
    (s.finish c st).caller c = .done st := State.caller_set_same (by simp) rfl
@[simp] theorem State.acquire_caller_same (s : State) (c : CallerId) (q : Request) :
    (s.acquire c q).caller c = .active := State.caller_set_same (by simp) rfl
theorem State.finish_caller_other (s : State) {c d : CallerId} (h : d ≠ c) (st : Status) :
    (s.finish c st).caller d = s.caller d := State.caller_set_other (v := .done st) h rfl
theorem State.acquire_caller_other (s : State) {c d : CallerId} (h : d ≠ c) (q : Request) :
    (s.acquire c q).caller d = s.caller d := State.caller_set_other (v := .active) h rfl
theorem State.setCaller_caller_other (s : State) {c d : CallerId} (h : d ≠ c) (v : CallerState) :
    (s.setCaller c v).caller d = s.caller d := State.caller_set_other (v := v) h rfl

/-- ISSUE never leaves a caller Idle or Active. -/
@[simp] theorem issuedState_ne_idle (e : Status) (q : Request) : issuedState e q ≠ .idle := by
  unfold issuedState; split_ifs <;> simp
@[simp] theorem issuedState_ne_active (e : Status) (q : Request) : issuedState e q ≠ .active := by
  unfold issuedState; split_ifs <;> simp

@[simp] theorem issuedState_read (e : Status) (sp : Space) (len : Len) (addr : Addr) :
    issuedState e ⟨.read, sp, len, addr⟩ = .waiting ⟨.read, sp, len, addr⟩ := by simp [issuedState]

theorem issuedState_write_one (e : Status) (sp : Space) (addr : Addr) :
    issuedState e ⟨.write, sp, 1, addr⟩ = .waiting ⟨.write, sp, 1, addr⟩ := by simp [issuedState, writeLenOk]

theorem issuedState_write_bad {len : Len} (h : len ≠ 1) (e : Status) (sp : Space) (addr : Addr) :
    issuedState e ⟨.write, sp, len, addr⟩ = .done (statusOfBadLength e) := by
  have h1 : writeLenOk len = false := beq_eq_false_iff_ne.2 h
  simp [issuedState, h1]

/-! Addresses. -/

/-- The bits of an address are ADDR_W bits. -/
theorem addrBits_lt (w : Nat) (addr : Addr) : addrBits w addr < 2 ^ w := Nat.mod_lt _ (Nat.two_pow_pos w)

/-- An address of ADDR_W bits stands on the port as it is. -/
theorem addrBits_of_lt {w : Nat} {addr : Addr} (h : addr < 2 ^ w) : addrBits w addr = addr := Nat.mod_eq_of_lt h

@[simp] theorem addrBits_addrBits (w : Nat) (addr : Addr) : addrBits w (addrBits w addr) = addrBits w addr :=
  addrBits_of_lt (addrBits_lt w addr)

theorem byteAddr_lt (w : Nat) (addr : Addr) (k : Count) : byteAddr w addr k < 2 ^ w := addrBits_lt w _

/-- Byte k of a buffer depends only on the ADDR_W bits of its address. -/
@[simp] theorem byteAddr_addrBits (w : Nat) (addr : Addr) (k : Count) :
    byteAddr w (addrBits w addr) k = byteAddr w addr k := by simp [byteAddr, addrBits]

/-- The address of byte j of a READ is (addr + j) mod 2^ADDR_W (R72). -/
theorem byteAddr_ofNat (w : Nat) (addr : Addr) {j : Nat} (h : j < 16) :
    byteAddr w addr (BitVec.ofNat 4 j) = (addr + j) % 2 ^ w := by
  simp [byteAddr, addrBits, Nat.mod_eq_of_lt h]

/-- With ADDR_W at least 4 the addresses of nine bytes one after another are distinct. -/
theorem byteAddr_injective {w : Nat} (hw : 4 ≤ w) (addr : Addr) {j k : Nat} (hj : j < 16) (hk : k < 16)
    (h : byteAddr w addr (BitVec.ofNat 4 j) = byteAddr w addr (BitVec.ofNat 4 k)) : j = k := by
  rw [byteAddr_ofNat _ _ hj, byteAddr_ofNat _ _ hk] at h
  have h16 : 16 ≤ 2 ^ w := Nat.pow_le_pow_right (n := 2) (by decide) hw
  have h' : j % 2 ^ w = k % 2 ^ w := Nat.ModEq.add_left_cancel' addr h
  rwa [Nat.mod_eq_of_lt (by omega), Nat.mod_eq_of_lt (by omega)] at h'

/-! The answers. -/

theorem State.putAnswer_eq (s : State) : s.putAnswer = s.putAnswerAt 0 := rfl

/-- The answers to come depend only on the listed ones and on the count of copies made. -/
theorem State.putAnswerAt_congr {s s' : State} (hp : s'.puts = s.puts) (hd : s'.draws = s.draws) (j : Nat) :
    s'.putAnswerAt j = s.putAnswerAt j := by simp [State.putAnswerAt, hp, hd]

/-- After a MemWrite the answers to come are the same, each one place earlier. -/
theorem State.putAnswerAt_tail {s s' : State} (hp : s'.puts = s.puts.tail) (hd : s'.draws = s.draws + 1) (j : Nat) :
    s'.putAnswerAt j = s.putAnswerAt (j + 1) := by
  simp [State.putAnswerAt, hp, hd, Nat.add_assoc, Nat.add_comm 1 j]

@[simp] theorem State.copyOut_putAnswerAt (s : State) (sp : Space) (a : Addr) (j : Nat) :
    (s.copyOut sp a).putAnswerAt j = s.putAnswerAt (j + 1) := State.putAnswerAt_tail rfl rfl j
@[simp] theorem State.acquire_putAnswerAt (s : State) (c : CallerId) (q : Request) (j : Nat) :
    (s.acquire c q).putAnswerAt j = s.putAnswerAt j := rfl
@[simp] theorem State.setCaller_putAnswerAt (s : State) (c : CallerId) (v : CallerState) (j : Nat) :
    (s.setCaller c v).putAnswerAt j = s.putAnswerAt j := rfl
@[simp] theorem State.acquire_getAnswer (s : State) (c : CallerId) (q : Request) :
    (s.acquire c q).getAnswer = s.getAnswer := rfl
@[simp] theorem State.setCaller_getAnswer (s : State) (c : CallerId) (v : CallerState) :
    (s.setCaller c v).getAnswer = s.getAnswer := rfl
@[simp] theorem State.setTxn_putAnswerAt (s : State) (x : Option Txn) (j : Nat) : (s.setTxn x).putAnswerAt j = s.putAnswerAt j := rfl
@[simp] theorem State.setTxn_putAnswer (s : State) (x : Option Txn) : (s.setTxn x).putAnswer = s.putAnswer := rfl
@[simp] theorem State.setTxn_getAnswer (s : State) (x : Option Txn) : (s.setTxn x).getAnswer = s.getAnswer := rfl
@[simp] theorem State.receive_putAnswerAt (s : State) (d : CallerId) (st : Status) (j : Nat) : (s.receive d st).putAnswerAt j = s.putAnswerAt j := rfl
@[simp] theorem State.receive_putAnswer (s : State) (d : CallerId) (st : Status) : (s.receive d st).putAnswer = s.putAnswer := rfl
@[simp] theorem State.receive_getAnswer (s : State) (d : CallerId) (st : Status) : (s.receive d st).getAnswer = s.getAnswer := rfl
@[simp] theorem State.setSchedule_putAnswerAt (s : State) (ms : List Move) (j : Nat) : (s.setSchedule ms).putAnswerAt j = s.putAnswerAt j := rfl
@[simp] theorem State.setSchedule_putAnswer (s : State) (ms : List Move) : (s.setSchedule ms).putAnswer = s.putAnswer := rfl
@[simp] theorem State.setSchedule_getAnswer (s : State) (ms : List Move) : (s.setSchedule ms).getAnswer = s.getAnswer := rfl
@[simp] theorem State.setRequester_putAnswerAt (s : State) (d : CallerId) (j : Nat) : (s.setRequester d).putAnswerAt j = s.putAnswerAt j := rfl
@[simp] theorem State.setRequester_putAnswer (s : State) (d : CallerId) : (s.setRequester d).putAnswer = s.putAnswer := rfl
@[simp] theorem State.setRequester_getAnswer (s : State) (d : CallerId) : (s.setRequester d).getAnswer = s.getAnswer := rfl

/-! The buffers. -/

/-- A MemWrite that fails leaves every byte of both buffers as it was (R52). -/
theorem State.copyOut_bufByte_fail {s : State} {st : Status} (h : s.putAnswer = .fail st) (sp sp' : Space) (a b : Addr) :
    (s.copyOut sp a).bufByte sp' b = s.bufByte sp' b := by
  cases sp' <;> simp [State.bufByte, State.buf, h, Memory.afterPut]

/-- A MemWrite that succeeds stores the advanced seed (R39, R52). -/
theorem State.copyOut_bufByte_same {s : State} (h : s.putAnswer = .ok) (sp : Space) (a : Addr) :
    (s.copyOut sp a).bufByte sp a = some (lfsrNext s.seed) := by
  cases sp <;> simp [State.bufByte, State.buf, h, Memory.afterPut, Memory.store]

/-- A MemWrite leaves every other byte of both buffers as it was. -/
theorem State.copyOut_bufByte_other (s : State) {sp sp' : Space} {a b : Addr} (h : sp' ≠ sp ∨ b ≠ a) :
    (s.copyOut sp a).bufByte sp' b = s.bufByte sp' b := by
  cases hans : s.putAnswer with
  | fail st => exact State.copyOut_bufByte_fail hans sp sp' a b
  | ok =>
    cases sp <;> cases sp' <;> simp [State.bufByte, State.buf, hans, Memory.afterPut, Memory.store] <;>
      exact keyedGet_put_other (by simpa using h) _ _

/-- A byte of the buffers depends only on the buffers. -/
theorem State.bufByte_congr {s s' : State} (hk : s'.kernel = s.kernel) (hu : s'.user = s.user) (sp : Space) (a : Addr) :
    s'.bufByte sp a = s.bufByte sp a := by cases sp <;> simp [State.bufByte, State.buf, hk, hu]

@[simp] theorem State.setSeed_bufByte (s : State) (v : Byte) (sp : Space) (a : Addr) :
    (s.setSeed v).bufByte sp a = s.bufByte sp a := by cases sp <;> rfl
@[simp] theorem State.setCaller_bufByte (s : State) (c : CallerId) (v : CallerState) (sp : Space) (a : Addr) :
    (s.setCaller c v).bufByte sp a = s.bufByte sp a := by cases sp <;> rfl
@[simp] theorem State.acquire_bufByte (s : State) (c : CallerId) (q : Request) (sp : Space) (a : Addr) :
    (s.acquire c q).bufByte sp a = s.bufByte sp a := by cases sp <;> rfl
@[simp] theorem State.finish_bufByte (s : State) (c : CallerId) (st : Status) (sp : Space) (a : Addr) :
    (s.finish c st).bufByte sp a = s.bufByte sp a := by cases sp <;> rfl
@[simp] theorem State.memRead_bufByte (s : State) (sp' : Space) (a' : Addr) (sp : Space) (a : Addr) :
    (s.memRead sp' a').bufByte sp a = s.bufByte sp a := by cases sp <;> rfl
@[simp] theorem State.setTxn_bufByte (s : State) (x : Option Txn) (sp : Space) (a : Addr) :
    (s.setTxn x).bufByte sp a = s.bufByte sp a := by cases sp <;> rfl
@[simp] theorem State.receive_bufByte (s : State) (d : CallerId) (st : Status) (sp : Space) (a : Addr) :
    (s.receive d st).bufByte sp a = s.bufByte sp a := by cases sp <;> rfl
@[simp] theorem State.setSchedule_bufByte (s : State) (ms : List Move) (sp : Space) (a : Addr) :
    (s.setSchedule ms).bufByte sp a = s.bufByte sp a := by cases sp <;> rfl
@[simp] theorem State.setRequester_bufByte (s : State) (d : CallerId) (sp : Space) (a : Addr) :
    (s.setRequester d).bufByte sp a = s.bufByte sp a := by cases sp <;> rfl

/-! The steps of R49: what each can answer. -/

/-- Admission, once and for all: nothing stops a request of an Idle caller that exists, after INIT. -/
theorem State.admissionFault_eq_none {s : State} {c : CallerId} :
    s.admissionFault c = none ↔ s.initialised = true ∧ c < s.nCallers ∧ s.caller c = .idle := by
  unfold State.admissionFault
  split_ifs <;> simp_all

/-- ISSUE answers a next state exactly where the request is admitted, and then it only sets cs[c]. -/
theorem State.issue_eq_next {s t : State} {c : CallerId} {q : Request} :
    s.issue c q = .next t ↔
      (s.initialised = true ∧ c < s.nCallers ∧ s.caller c = .idle) ∧ t = s.setCaller c (issuedState s.einval q) := by
  unfold State.issue
  rw [← State.admissionFault_eq_none]
  cases s.admissionFault c <;> simp [eq_comm]

/-- ACQUIRE takes the lock for a waiting caller, or leaves the state as it is. -/
theorem State.stepAcquire_cases {s t : State} {c : CallerId} (h : s.stepAcquire c = .next t) :
    t = s ∨ ∃ q, s.caller c = .waiting q ∧ s.initialised = true ∧ s.lock = .free ∧ t = s.acquire c q := by
  unfold State.stepAcquire at h
  split at h
  · split_ifs at h <;> simp_all
  · simp_all

/-- READ_BYTE copies one byte of the caller's READ, or leaves the state as it is. -/
theorem State.stepReadByte_cases {s t : State} {c : CallerId} (h : s.stepReadByte c = .next t) :
    t = s ∨ ∃ x, s.txn = some x ∧ x.owner = c ∧ x.op = .read ∧ x.i < x.n ∧ s.initialised = true ∧ t = s.readByteOf x := by
  unfold State.stepReadByte at h
  split at h
  · split_ifs at h <;> simp_all
  · simp_all

/-- READ_END ends the caller's READ, or leaves the state as it is. -/
theorem State.stepReadEnd_cases {s t : State} {c : CallerId} (h : s.stepReadEnd c = .next t) :
    t = s ∨ ∃ x, s.txn = some x ∧ x.owner = c ∧ x.op = .read ∧ x.i = x.n ∧ t = s.finish c (statusOfCount x.n) := by
  unfold State.stepReadEnd at h
  split at h
  · split_ifs at h <;> simp_all
  · simp_all

/-- WRITE_COPY copies the byte of the caller's WRITE and ends it, or leaves the state as it is. -/
theorem State.stepWriteCopy_cases {s t : State} {c : CallerId} (h : s.stepWriteCopy c = .next t) :
    t = s ∨ ∃ x, s.txn = some x ∧ x.owner = c ∧ x.op = .write ∧ s.initialised = true ∧
      t = (s.memRead x.space x.addr).finishWrite c s.getAnswer := by
  unfold State.stepWriteCopy at h
  split at h
  · split_ifs at h <;> simp_all
  · simp_all

/-- TAKE gives a done caller its status, or leaves the state as it is. -/
theorem State.stepTake_cases {s t : State} {c : CallerId} (h : s.stepTake c = .next t) :
    t = s ∨ ∃ st, s.caller c = .done st ∧
      t = (s.setCaller c .idle).receive c st := by
  unfold State.stepTake at h
  split at h <;> simp_all

/-- What the end of a WRITE leaves, whatever the answer: the lock free, no record, and the caller done. -/
theorem State.finishWrite_shape (s : State) (c : CallerId) (ans : GetAnswer) :
    ∃ v st, s.finishWrite c ans = (s.setSeed v).finish c st := by
  cases ans with
  | ok b => exact ⟨b, _, rfl⟩
  | fail st => exact ⟨s.seed, st, rfl⟩

/-- What READ_BYTE leaves: the copy made, and then either the index advanced or the operation finished. -/
theorem State.readByteOf_cases (s : State) (x : Txn) :
    (s.putAnswer = .ok ∧
      s.readByteOf x = (s.copyOut x.space (byteAddr s.addrW x.addr x.i)).setTxn (some { x with i := x.i + 1 })) ∨
    (∃ st, s.putAnswer = .fail st ∧
      s.readByteOf x = (s.copyOut x.space (byteAddr s.addrW x.addr x.i)).finish x.owner (statusOfCount x.i)) := by
  unfold State.readByteOf
  cases h : s.putAnswer <;> simp

end Sys2Proof.Machine
end

