-- ==== Sys2Proof/Laws/Step.lean ====
section
/-! SUPPORT. What the operations and one step can do: one inversion lemma for each. -/

namespace Sys2Proof.Machine

/-- The state in which the requester, whose request `q` has been issued, has taken the lock. -/
abbrev State.entered (s : State) (q : Request) : State :=
  (s.setCaller s.requester (.waiting q)).acquire s.requester q

/-- The loop of READ depends only on the ADDR_W bits of the address. -/
theorem readLoop_addrBits (sp : Space) (w : Nat) (addr : Addr) (k : Nat) :
    ∀ (i : Count) (s : State), s.addrW = w → readLoop sp (addrBits w addr) k i s = readLoop sp addr k i s := by
  induction k with
  | zero => intros; rfl
  | succ k ih =>
    rintro i s rfl
    have h := ih (i + 1) (s.copyOut sp (byteAddr s.addrW addr i)) rfl
    simp only [readLoop, byteAddr_addrBits, h]

/-- READ under the lock depends only on the ADDR_W bits of the address. -/
theorem readLocked_addrBits (c : CallerId) (sp : Space) (len : Len) (addr : Addr) (s : State) :
    readLocked c sp len (addrBits s.addrW addr) s = readLocked c sp len addr s := by
  simp only [readLocked, readLoop_addrBits sp s.addrW addr _ _ s rfl]

/-- READ, once and for all: it is admitted, and then it runs to its status where the lock is free and waits elsewhere. -/
theorem execRead_eq_next {s t : State} {sp : Space} {len : Len} {addr : Addr} :
    execRead sp len addr s = .next t ↔
      (s.initialised = true ∧ s.requester < s.nCallers ∧ s.caller s.requester = .idle) ∧
      ((s.lock = .free ∧ t = readLocked s.requester sp len addr
          (s.entered ⟨.read, sp, len, addrBits s.addrW addr⟩)) ∨
       (s.lock ≠ .free ∧ t = s.setCaller s.requester (.waiting ⟨.read, sp, len, addrBits s.addrW addr⟩))) := by
  unfold execRead State.issue State.onPort
  rw [← State.admissionFault_eq_none]
  cases s.admissionFault s.requester with
  | some f => simp
  | none =>
    have h := readLocked_addrBits s.requester sp len addr (s.entered ⟨.read, sp, len, addrBits s.addrW addr⟩)
    by_cases hl : s.lock = .free <;> simp_all [eq_comm]

/-- WRITE of another length than 1: it is admitted, and then done at once. -/
theorem execWrite_bad_eq_next {s t : State} {sp : Space} {len : Len} {addr : Addr} (hlen : len ≠ 1) :
    execWrite sp len addr s = .next t ↔
      (s.initialised = true ∧ s.requester < s.nCallers ∧ s.caller s.requester = .idle) ∧
      t = s.setCaller s.requester (.done (statusOfBadLength s.einval)) := by
  unfold execWrite State.issue State.onPort
  rw [← State.admissionFault_eq_none]
  cases s.admissionFault s.requester with
  | some f => simp
  | none =>
    have h1 : (len == 1) = false := beq_eq_false_iff_ne.2 hlen
    simp only [issuedState_write_bad hlen, writeLenOk, h1]
    simp [eq_comm]

/-- WRITE of length 1: it is admitted, and then it runs to its status where the lock is free and waits elsewhere. -/
theorem execWrite_one_eq_next {s t : State} {sp : Space} {addr : Addr} :
    execWrite sp 1 addr s = .next t ↔
      (s.initialised = true ∧ s.requester < s.nCallers ∧ s.caller s.requester = .idle) ∧
      ((s.lock = .free ∧ t = writeLocked s.requester sp (addrBits s.addrW addr)
          (s.entered ⟨.write, sp, 1, addrBits s.addrW addr⟩)) ∨
       (s.lock ≠ .free ∧ t = s.setCaller s.requester (.waiting ⟨.write, sp, 1, addrBits s.addrW addr⟩))) := by
  unfold execWrite State.issue State.onPort
  rw [← State.admissionFault_eq_none]
  cases s.admissionFault s.requester with
  | some f => simp
  | none => by_cases hl : s.lock = .free <;> simp [writeLenOk, hl, issuedState, eq_comm]

/-- The decoder gives READ and WRITE only, each with the operands of the request (R69, R74). -/
theorem decode_cases {r : RawRequest} {i : Instr} (h : decode r = .ok i) :
    i = .read (spaceOfBit r.s) r.len r.addr ∨ i = .write (spaceOfBit r.s) r.len r.addr := by
  unfold decode decodeRequest at h
  split_ifs at h <;> simp_all [Request.toInstr, eq_comm]

/-- One step, once and for all: no move left, or the head of the schedule moves. -/
theorem step_cases {s t : State} (h : step s = .next t) :
    (s.schedule = [] ∧ t = s) ∨
    ∃ m rest, s.schedule = m :: rest ∧
      ((m = .init ∧ execInit (s.setSchedule rest) = .next t) ∨
       (∃ c r sp len addr, m = .request c r ∧ decode r = .ok (.read sp len addr) ∧
          execRead sp len addr ((s.setSchedule rest).setRequester c) = .next t) ∨
       (∃ c r sp len addr, m = .request c r ∧ decode r = .ok (.write sp len addr) ∧
          execWrite sp len addr ((s.setSchedule rest).setRequester c) = .next t) ∨
       (∃ c r q, m = .issue c r ∧ decodeRequest r = .ok q ∧ (s.setSchedule rest).issue c ((s.setSchedule rest).onPort q) = .next t) ∨
       (∃ c, m = .acquire c ∧ (s.setSchedule rest).stepAcquire c = .next t) ∨
       (∃ c, m = .readByte c ∧ (s.setSchedule rest).stepReadByte c = .next t) ∨
       (∃ c, m = .readEnd c ∧ (s.setSchedule rest).stepReadEnd c = .next t) ∨
       (∃ c, m = .writeCopy c ∧ (s.setSchedule rest).stepWriteCopy c = .next t) ∨
       (∃ c, m = .take c ∧ (s.setSchedule rest).stepTake c = .next t)) := by
  unfold step fetch at h
  cases hs : s.schedule with
  | nil => simp_all
  | cons m rest =>
    refine .inr ⟨m, rest, rfl, ?_⟩
    simp only [hs] at h
    cases m with
    | init => simpa [fetchMove, exec] using h
    | request c r =>
      simp only [fetchMove, fetchRequest] at h
      cases hd : decode r with
      | error e => simp [hd] at h
      | ok i =>
        simp only [hd] at h
        rcases decode_cases hd with rfl | rfl
        · exact .inr (.inl ⟨c, r, _, _, _, rfl, hd, h⟩)
        · exact .inr (.inr (.inl ⟨c, r, _, _, _, rfl, hd, h⟩))
    | issue c r =>
      simp only [fetchMove, fetchIssue] at h
      cases hd : decodeRequest r with
      | error e => simp [hd] at h
      | ok q =>
        simp only [hd] at h
        exact .inr (.inr (.inr (.inl ⟨c, r, q, rfl, hd, h⟩)))
    | acquire c => simp_all [fetchMove]
    | readByte c => simp_all [fetchMove]
    | readEnd c => simp_all [fetchMove]
    | writeCopy c => simp_all [fetchMove]
    | take c => simp_all [fetchMove]

end Sys2Proof.Machine
end

