-- ==== Sys2Proof/Laws/ReadLoop.lean ====
section
/-! SUPPORT. The loop of READ, once and for all: which of its bytes it copies, and what the copies leave. -/

namespace Sys2Proof.Machine

theorem count_zero_add (x : Count) : (0 : Count) + x = x := BitVec.zero_add x

/-- The copies of bytes i, i + 1, ... , one after another: what READ does to the state whatever the answers. -/
def copyMany (sp : Space) (addr : Addr) : Nat → Count → State → State
  | 0, _, s => s
  | k + 1, i, s => copyMany sp addr k (i + 1) (s.copyOut sp (byteAddr s.addrW addr i))

/-- The answers split the loop's bytes in one way: a first copy that fails, or none among the first `m`. -/
theorem State.exists_first_failure (s : State) (m : Nat) :
    ∃ k ≤ m, (∀ j < k, s.putAnswerAt j = .ok) ∧ (k = m ∨ k < m ∧ ∃ st, s.putAnswerAt k = .fail st) := by
  induction m with
  | zero => exact ⟨0, by simp⟩
  | succ m ih =>
    obtain ⟨k, hk, hok, h⟩ := ih
    rcases h with rfl | ⟨hlt, hst⟩
    · cases hm : s.putAnswerAt k with
      | ok =>
        refine ⟨k + 1, le_refl _, fun j hj => ?_, .inl rfl⟩
        rcases Nat.lt_succ_iff_lt_or_eq.1 hj with hj | rfl
        · exact hok j hj
        · exact hm
      | fail st => exact ⟨k, Nat.le_succ k, hok, .inr ⟨Nat.lt_succ_self k, st, hm⟩⟩
    · exact ⟨k, by omega, hok, .inr ⟨by omega, hst⟩⟩

/-- The loop with `m` bytes left copies the k bytes before the first failure, and attempts one more where one fails. -/
theorem readLoop_eq (sp : Space) (addr : Addr) (m : Nat) :
    ∀ (k : Nat) (i : Count) (s : State), k ≤ m → (∀ j < k, s.putAnswerAt j = .ok) →
      (k = m ∨ ∃ st, s.putAnswerAt k = .fail st) →
      readLoop sp addr m i s = (i + BitVec.ofNat 4 k, copyMany sp addr (if k = m then k else k + 1) i s) := by
  induction m with
  | zero =>
    intro k i s hk _ _
    obtain rfl : k = 0 := by omega
    simp [readLoop, copyMany]
  | succ m ih =>
    intro k i s hk hok hst
    cases k with
    | zero =>
      obtain ⟨st, hst⟩ : ∃ st, s.putAnswerAt 0 = .fail st := by simpa using hst
      simp [readLoop, State.putAnswer_eq, hst, copyMany]
    | succ k =>
      have h0 : s.putAnswerAt 0 = .ok := hok 0 (by omega)
      simp only [readLoop, State.putAnswer_eq, h0]
      rw [ih k (i + 1) _ (by omega) (fun j hj => by simpa using hok (j + 1) (by omega)) (by simpa using hst)]
      simp only [Nat.add_right_cancel_iff]
      congr 1
      · rw [BitVec.add_assoc, Nat.add_comm k 1, BitVec.ofNat_add]; rfl
      · split_ifs <;> rfl

/-- k copies advance the seed k times. -/
@[simp] theorem copyMany_seed (sp : Space) (addr : Addr) (k : Nat) :
    ∀ (i : Count) (s : State), (copyMany sp addr k i s).seed = lfsrNext^[k] s.seed := by
  induction k with
  | zero => intros; rfl
  | succ k ih => intro i s; simp [copyMany, ih]

@[simp] theorem copyMany_draws (sp : Space) (addr : Addr) (k : Nat) :
    ∀ (i : Count) (s : State), (copyMany sp addr k i s).draws = s.draws + k := by
  induction k with
  | zero => intros; rfl
  | succ k ih => intro i s; simp only [copyMany, ih, State.copyOut_draws]; omega

@[simp] theorem copyMany_puts (sp : Space) (addr : Addr) (k : Nat) :
    ∀ (i : Count) (s : State), (copyMany sp addr k i s).puts = s.puts.drop k := by
  induction k with
  | zero => intros; rfl
  | succ k ih => intro i s; simp [copyMany, ih]

/-- The copies made, in order: byte j is the seed after j + 1 advances, to address addr + i + j, with its answer. -/
theorem copyMany_copies (sp : Space) (addr : Addr) (k : Nat) :
    ∀ (i : Count) (s : State), (copyMany sp addr k i s).copies = s.copies ++ (List.range k).map
      (fun j => .memWrite sp (byteAddr s.addrW addr (i + BitVec.ofNat 4 j)) (lfsrNext^[j + 1] s.seed) (s.putAnswerAt j)) := by
  induction k with
  | zero => intros; simp [copyMany]
  | succ k ih =>
    intro i s
    have hi : ∀ j, i + 1 + BitVec.ofNat 4 j = i + BitVec.ofNat 4 (j + 1) := fun j => by
      rw [BitVec.add_assoc, Nat.add_comm j 1, BitVec.ofNat_add]; rfl
    simp only [copyMany, ih, List.range_succ_eq_map, List.map_cons, List.map_map, Function.comp_def, hi]
    simp [State.putAnswer_eq]

/-- Copies change nothing but the seed, the buffers, the copies made and the stream of answers. -/
theorem copyMany_frame (sp : Space) (addr : Addr) (k : Nat) :
    ∀ (i : Count) (s : State),
      { copyMany sp addr k i s with
        seed := s.seed, kernel := s.kernel, user := s.user
        copies := s.copies, puts := s.puts, draws := s.draws } = s := by
  induction k with
  | zero => intros; rfl
  | succ k ih =>
    intro i s
    have h := ih (i + 1) (s.copyOut sp (byteAddr s.addrW addr i))
    simp only [State.ext_iff] at h ⊢
    simp_all [copyMany]

@[simp] theorem copyMany_lock (sp : Space) (addr : Addr) (k : Nat) (i : Count) (s : State) :
    (copyMany sp addr k i s).lock = s.lock :=
  (congrArg State.lock (copyMany_frame sp addr k i s) :)
@[simp] theorem copyMany_txn (sp : Space) (addr : Addr) (k : Nat) (i : Count) (s : State) :
    (copyMany sp addr k i s).txn = s.txn :=
  (congrArg State.txn (copyMany_frame sp addr k i s) :)
@[simp] theorem copyMany_callers (sp : Space) (addr : Addr) (k : Nat) (i : Count) (s : State) :
    (copyMany sp addr k i s).callers = s.callers :=
  (congrArg State.callers (copyMany_frame sp addr k i s) :)
@[simp] theorem copyMany_initialised (sp : Space) (addr : Addr) (k : Nat) (i : Count) (s : State) :
    (copyMany sp addr k i s).initialised = s.initialised :=
  (congrArg State.initialised (copyMany_frame sp addr k i s) :)
@[simp] theorem copyMany_registration (sp : Space) (addr : Addr) (k : Nat) (i : Count) (s : State) :
    (copyMany sp addr k i s).registration = s.registration :=
  (congrArg State.registration (copyMany_frame sp addr k i s) :)
@[simp] theorem copyMany_nCallers (sp : Space) (addr : Addr) (k : Nat) (i : Count) (s : State) :
    (copyMany sp addr k i s).nCallers = s.nCallers :=
  (congrArg State.nCallers (copyMany_frame sp addr k i s) :)
@[simp] theorem copyMany_addrW (sp : Space) (addr : Addr) (k : Nat) (i : Count) (s : State) :
    (copyMany sp addr k i s).addrW = s.addrW :=
  (congrArg State.addrW (copyMany_frame sp addr k i s) :)
@[simp] theorem copyMany_einval (sp : Space) (addr : Addr) (k : Nat) (i : Count) (s : State) :
    (copyMany sp addr k i s).einval = s.einval :=
  (congrArg State.einval (copyMany_frame sp addr k i s) :)
@[simp] theorem copyMany_received (sp : Space) (addr : Addr) (k : Nat) (i : Count) (s : State) :
    (copyMany sp addr k i s).received = s.received :=
  (congrArg State.received (copyMany_frame sp addr k i s) :)
@[simp] theorem copyMany_coreLog (sp : Space) (addr : Addr) (k : Nat) (i : Count) (s : State) :
    (copyMany sp addr k i s).coreLog = s.coreLog :=
  (congrArg State.coreLog (copyMany_frame sp addr k i s) :)
@[simp] theorem copyMany_schedule (sp : Space) (addr : Addr) (k : Nat) (i : Count) (s : State) :
    (copyMany sp addr k i s).schedule = s.schedule :=
  (congrArg State.schedule (copyMany_frame sp addr k i s) :)
@[simp] theorem copyMany_gets (sp : Space) (addr : Addr) (k : Nat) (i : Count) (s : State) :
    (copyMany sp addr k i s).gets = s.gets :=
  (congrArg State.gets (copyMany_frame sp addr k i s) :)
@[simp] theorem copyMany_requester (sp : Space) (addr : Addr) (k : Nat) (i : Count) (s : State) :
    (copyMany sp addr k i s).requester = s.requester :=
  (congrArg State.requester (copyMany_frame sp addr k i s) :)
@[simp] theorem copyMany_caller (sp : Space) (addr : Addr) (k : Nat) (i : Count) (s : State) (c : CallerId) :
    (copyMany sp addr k i s).caller c = s.caller c := State.caller_congr (copyMany_callers sp addr k i s) c

/-- The clamped count is min(len, 8) (R38). -/
@[simp] theorem clampedCount_toNat (len : Len) : (clampedCount len).toNat = min len.toNat 8 := by
  simp only [clampedCount, Config.readMax, BitVec.toNat_ofNat]
  omega

/-- READ under the lock, once and for all: the copies it attempts, then FINISH with the count copied (R37, R40). -/
theorem readLocked_eq (c : CallerId) (sp : Space) (len : Len) (addr : Addr) (s : State) {k : Nat}
    (hk : k ≤ min len.toNat 8) (hok : ∀ j < k, s.putAnswerAt j = .ok)
    (hst : k = min len.toNat 8 ∨ ∃ st, s.putAnswerAt k = .fail st) :
    readLocked c sp len addr s =
      (copyMany sp addr (if k = min len.toNat 8 then k else k + 1) 0 s).finish c (BitVec.ofNat 32 k) := by
  unfold readLocked
  rw [clampedCount_toNat, readLoop_eq sp addr _ k 0 s hk hok hst]
  simp only [statusOfCount]
  congr 1
  have : k ≤ 8 := by omega
  interval_cases k <;> rfl

/-- A byte of the buffers outside the addresses copied to is as before. -/
theorem copyMany_bufByte_other (sp sp' : Space) (addr a : Addr) (k : Nat) :
    ∀ (i : Count) (s : State), (sp' ≠ sp ∨ ∀ j < k, a ≠ byteAddr s.addrW addr (i + BitVec.ofNat 4 j)) →
      (copyMany sp addr k i s).bufByte sp' a = s.bufByte sp' a := by
  induction k with
  | zero => intros; rfl
  | succ k ih =>
    intro i s h
    have hi : ∀ j, i + 1 + BitVec.ofNat 4 j = i + BitVec.ofNat 4 (j + 1) := fun j => by
      rw [BitVec.add_assoc, Nat.add_comm j 1, BitVec.ofNat_add]; rfl
    rw [copyMany, ih, State.copyOut_bufByte_other]
    · exact h.imp id fun h => by simpa using h 0 (by omega)
    · exact h.imp id fun h j hj => by rw [hi]; exact h (j + 1) (by omega)

/-- The last of k + 1 copies, after the first k. -/
theorem copyMany_succ (sp : Space) (addr : Addr) (k : Nat) :
    ∀ (i : Count) (s : State), copyMany sp addr (k + 1) i s =
      (copyMany sp addr k i s).copyOut sp (byteAddr s.addrW addr (i + BitVec.ofNat 4 k)) := by
  induction k with
  | zero => intro i s; simp [copyMany]
  | succ k ih =>
    intro i s
    have hi : i + 1 + BitVec.ofNat 4 k = i + BitVec.ofNat 4 (k + 1) := by
      rw [BitVec.add_assoc, Nat.add_comm k 1, BitVec.ofNat_add]; rfl
    rw [copyMany, ih, hi]; rfl

/-- After k copies the answers to come are the same, each k places earlier. -/
@[simp] theorem copyMany_putAnswerAt (sp : Space) (addr : Addr) (k : Nat) :
    ∀ (i : Count) (s : State) (j : Nat), (copyMany sp addr k i s).putAnswerAt j = s.putAnswerAt (j + k) := by
  induction k with
  | zero => intros; rfl
  | succ k ih => intro i s j; simp only [copyMany, ih, State.copyOut_putAnswerAt]; congr 1

/-- Byte j of the copies, where its copy succeeded: the seed after j + 1 advances. The addresses of at most 9 bytes are
distinct, so no later copy of the READ overwrites it. -/
theorem copyMany_bufByte_copied (sp : Space) (addr : Addr) (s : State) (hw : 4 ≤ s.addrW) {k j : Nat} (hj : j < k)
    (hk : k ≤ 9) (hok : s.putAnswerAt j = .ok) :
    (copyMany sp addr k 0 s).bufByte sp (byteAddr s.addrW addr (BitVec.ofNat 4 j)) = some (lfsrNext^[j + 1] s.seed) := by
  induction k with
  | zero => omega
  | succ k ih =>
    rw [copyMany_succ, count_zero_add]
    rcases Nat.lt_succ_iff_lt_or_eq.1 hj with hj | rfl
    · rw [State.copyOut_bufByte_other, ih hj (by omega)]
      exact .inr fun h => absurd (byteAddr_injective hw addr (by omega) (by omega) h) (Nat.ne_of_lt hj)
    · rw [State.copyOut_bufByte_same (by simpa [State.putAnswer_eq] using hok), copyMany_seed,
        Function.iterate_succ_apply']

end Sys2Proof.Machine
end

