-- ==== Sys2Proof/Laws/Inv.lean ====
section
/-! SUPPORT. The invariant, once for each shared operation: what has to be checked of a state that is written out, what the
invariant says of the lock and the record, and that each named update keeps it. -/

namespace Sys2Proof.Machine

/-- A caller that is not Idle is listed with its state. -/
theorem State.mem_of_caller {s : State} {c : CallerId} {v : CallerState} (h : s.caller c = v) (hv : v ≠ .idle) :
    (c, v) ∈ s.callers := by
  apply mem_of_keyedGet
  unfold State.caller at h
  cases hg : keyedGet c s.callers with
  | none => exact absurd (by simpa [hg] using h.symm) hv
  | some w => simpa [hg] using h

/-- The invariant, where what it says of callers is checked entry by entry of the caller table. -/
theorem State.inv_of_entries {s : State} (hn : 0 < s.nCallers) (hw : 4 ≤ s.addrW) (he : s.einval.toInt < 0)
    (hk : Memory.wf s.addrW s.kernel) (hu : Memory.wf s.addrW s.user) (hr : Rising s.callers)
    (hlist : ∀ e ∈ s.callers, e.1 < s.nCallers ∧ e.2 ≠ .idle)
    (hlock : s.initialised = true → lockMatches s.lock s.txn)
    (hact : ∀ e ∈ s.callers, e.2 = .active → s.txn.map Txn.owner = some e.1)
    (htxn : ∀ t, s.txn = some t → s.caller t.owner = .active ∧ txnOk t ∧ t.addr < 2 ^ s.addrW)
    (hwait : ∀ e ∈ s.callers, ∀ q, e.2 = .waiting q → q.addr < 2 ^ s.addrW ∧ (q.op = .write → q.len = 1))
    (hbefore : s.initialised = false → s.txn = none ∧ s.callers = [] ∧ s.registration = none)
    (hreg : s.initialised = true → s.registration = some Config.devSlot) : s.Inv where
  someCaller := hn
  addrWide := hw
  einvalNegative := he
  kernelWf := hk
  userWf := hu
  callersRising := hr
  callersListed := hlist
  lockTxn := hlock
  activeOwns c := by
    refine ⟨fun h => ?_, fun ⟨t, ht, hc⟩ => hc ▸ (htxn t ht).1⟩
    simpa [Option.map_eq_some_iff] using hact _ (State.mem_of_caller h (by simp)) rfl
  txnInRange t ht := (htxn t ht).2.1
  txnAddr t ht := (htxn t ht).2.2
  waitingAddr _ q h := (hwait _ (State.mem_of_caller h (by simp)) q rfl).1
  waitingLen _ q h := (hwait _ (State.mem_of_caller h (by simp)) q rfl).2
  beforeInit := hbefore
  registered := hreg

/-- A caller that is not Idle is one there is. -/
theorem State.Inv.caller_lt {s : State} (h : s.Inv) {c : CallerId} (hc : s.caller c ≠ .idle) : c < s.nCallers :=
  (h.callersListed _ (State.mem_of_caller rfl hc)).1

/-- A caller that is not Idle is so only after INIT. -/
theorem State.Inv.initialised_of_caller {s : State} (h : s.Inv) {c : CallerId} (hc : s.caller c ≠ .idle) :
    s.initialised = true := by
  by_contra hi
  exact hc (by simp [State.caller, (h.beforeInit (by simpa using hi)).2.1])

/-- An operation in flight: after INIT, with the lock held by its owner. -/
theorem State.Inv.lock_of_txn {s : State} (h : s.Inv) {x : Txn} (hx : s.txn = some x) :
    s.initialised = true ∧ s.lock = .held x.owner := by
  have hi : s.initialised = true := h.initialised_of_caller (c := x.owner) (by simp [(h.activeOwns x.owner).2 ⟨x, hx, rfl⟩])
  refine ⟨hi, ?_⟩
  have hm := h.lockTxn hi
  cases hl : s.lock <;> simp_all [lockMatches]

/-- The lock Free: nothing is in flight. -/
theorem State.Inv.txn_of_free {s : State} (h : s.Inv) (hl : s.lock = .free) :
    s.txn = none := by
  cases hx : s.txn with
  | none => rfl
  | some x => simp [(h.lock_of_txn hx).2] at hl

/-- The lock held after INIT: its holder's operation is in flight. -/
theorem State.Inv.txn_of_held {s : State} (h : s.Inv) (hi : s.initialised = true) {c : CallerId}
    (hl : s.lock = .held c) : ∃ x, s.txn = some x ∧ x.owner = c := by
  have hm := h.lockTxn hi
  rw [hl] at hm
  cases hx : s.txn with
  | none => rw [hx] at hm; exact hm.elim
  | some x => rw [hx] at hm; exact ⟨x, rfl, hm⟩

/-- The invariant depends only on the fields it names. -/
theorem State.Inv.congr {s t : State} (h : s.Inv) (hn : t.nCallers = s.nCallers) (hw : t.addrW = s.addrW)
    (he : t.einval = s.einval) (hk : t.kernel = s.kernel) (hu : t.user = s.user) (hc : t.callers = s.callers)
    (hi : t.initialised = s.initialised) (hl : t.lock = s.lock) (hx : t.txn = s.txn)
    (hr : t.registration = s.registration) : t.Inv := by
  have hcc : ∀ c, t.caller c = s.caller c := State.caller_congr hc
  constructor <;> simp only [hn, hw, he, hk, hu, hc, hi, hl, hx, hr, hcc]
  exacts [h.someCaller, h.addrWide, h.einvalNegative, h.kernelWf, h.userWf, h.callersRising, h.callersListed, h.lockTxn,
    h.activeOwns, h.txnInRange, h.txnAddr, h.waitingAddr, h.waitingLen, h.beforeInit, h.registered]

theorem State.Inv.setSchedule {s : State} (h : s.Inv) (ms : List Move) : (s.setSchedule ms).Inv :=
  h.congr rfl rfl rfl rfl rfl rfl rfl rfl rfl rfl

theorem State.Inv.setRequester {s : State} (h : s.Inv) (c : CallerId) : (s.setRequester c).Inv :=
  h.congr rfl rfl rfl rfl rfl rfl rfl rfl rfl rfl

/-- Setting a caller that owns nothing to another state that owns nothing keeps the invariant. -/
theorem State.Inv.setCaller {s : State} (h : s.Inv) (hi : s.initialised = true) {c : CallerId} {v : CallerState}
    (hc : c < s.nCallers) (hna : s.caller c ≠ .active) (hv : v ≠ .active)
    (hw : ∀ q, v = .waiting q → q.addr < 2 ^ s.addrW ∧ (q.op = .write → q.len = 1)) : (s.setCaller c v).Inv := by
  have hcc : (s.setCaller c v).caller c = v := by
    by_cases hvi : v = .idle
    · subst hvi; exact State.caller_set_idle h.callersRising rfl
    · exact State.caller_set_same hvi rfl
  have hco : ∀ d, d ≠ c → (s.setCaller c v).caller d = s.caller d := fun d hd => State.setCaller_caller_other _ hd _
  refine ⟨h.someCaller, h.addrWide, h.einvalNegative, h.kernelWf, h.userWf, rising_callersSet h.callersRising _ _, ?_,
    h.lockTxn, ?_, h.txnInRange, h.txnAddr, ?_, ?_, fun h' => by simp [hi] at h', h.registered⟩
  · intro e he
    rcases mem_callersSet he with ⟨rfl, h1⟩ | he
    · exact ⟨hc, h1⟩
    · exact h.callersListed e he
  · intro d
    by_cases hd : d = c
    · subst hd
      rw [hcc]
      exact ⟨fun h => absurd h hv, fun h' => absurd ((h.activeOwns d).2 h') hna⟩
    · rw [hco d hd]; exact h.activeOwns d
  all_goals
    intro d q
    by_cases hd : d = c
    · subst hd; rw [hcc]; intro hq; first | exact (hw q hq).1 | exact (hw q hq).2
    · rw [hco d hd]; first | exact h.waitingAddr d q | exact h.waitingLen d q

/-- The record that ACQUIRE makes is in range. -/
theorem txnOk_txnOf (c : CallerId) (q : Request) : txnOk (txnOf c q) := by
  rcases q with ⟨_ | _, sp, len, addr⟩ <;> simp [txnOk, txnOf, BitVec.le_def]

/-- ACQUIRE of a waiting caller keeps the invariant. -/
theorem State.Inv.acquire {s : State} (h : s.Inv) (hi : s.initialised = true) (hl : s.lock = .free) {c : CallerId}
    {q : Request} (hc : s.caller c = .waiting q) : (s.acquire c q).Inv := by
  have hx := h.txn_of_free hl
  have hco : ∀ d, d ≠ c → (s.acquire c q).caller d = s.caller d := fun d hd => State.acquire_caller_other _ hd _
  refine ⟨h.someCaller, h.addrWide, h.einvalNegative, h.kernelWf, h.userWf, ?_, ?_,
    fun _ => rfl, ?_, ?_, ?_, ?_, ?_, fun h' => by simp [hi] at h', h.registered⟩
  · rw [State.acquire_callers]; exact rising_callersSet h.callersRising _ _
  · intro e he
    rw [State.acquire_callers] at he
    rcases mem_callersSet he with ⟨rfl, h1⟩ | he
    · exact ⟨h.caller_lt (by simp [hc]), h1⟩
    · exact h.callersListed e he
  · intro d
    by_cases hd : d = c
    · subst hd; simp [txnOf]
    · rw [hco d hd, h.activeOwns d]; simp [hx, txnOf, Ne.symm hd]
  · intro t ht; cases ht; exact txnOk_txnOf c q
  · intro t ht; cases ht; exact h.waitingAddr c q hc
  all_goals
    intro d q'
    by_cases hd : d = c
    · subst hd; simp
    · rw [hco d hd]; first | exact h.waitingAddr d q' | exact h.waitingLen d q'

/-- FINISH of the operation in flight keeps the invariant, after whatever its copies did to seed and buffers. -/
theorem State.Inv.finish {s t : State} (h : s.Inv) {x : Txn} (hx : s.txn = some x) (hn : t.nCallers = s.nCallers)
    (hw : t.addrW = s.addrW) (he : t.einval = s.einval) (hk : Memory.wf t.addrW t.kernel)
    (hu : Memory.wf t.addrW t.user) (hcc : t.callers = s.callers) (hi : t.initialised = s.initialised)
    (hr : t.registration = s.registration) (st : Status) : (t.finish x.owner st).Inv := by
  have hco : ∀ d, d ≠ x.owner → (t.finish x.owner st).caller d = s.caller d := fun d hd => by
    rw [State.finish_caller_other _ hd, State.caller_congr hcc]
  have hact : s.caller x.owner = .active := (h.activeOwns _).2 ⟨x, hx, rfl⟩
  have hi' : t.initialised = true := hi.trans (h.lock_of_txn hx).1
  refine ⟨hn ▸ h.someCaller, hw ▸ h.addrWide, he ▸ h.einvalNegative, hk, hu, ?_, ?_, fun _ => trivial, ?_, ?_, ?_, ?_, ?_,
    fun h' => by simp [hi'] at h', fun _ => hr.trans (h.registered (h.lock_of_txn hx).1)⟩
  · rw [State.finish_callers, hcc]; exact rising_callersSet h.callersRising _ _
  · intro e hm
    rw [State.finish_callers, hcc] at hm
    rw [State.finish_nCallers, hn]
    rcases mem_callersSet hm with ⟨rfl, h1⟩ | hm
    · exact ⟨h.caller_lt (by simp [hact]), h1⟩
    · exact h.callersListed e hm
  · intro d
    by_cases hd : d = x.owner
    · subst hd; simp
    · rw [hco d hd, h.activeOwns d]; simp [hx, Ne.symm hd]
  · intro t ht; cases ht
  · intro t ht; cases ht
  all_goals
    intro d q
    by_cases hd : d = x.owner
    · subst hd; simp
    · rw [hco d hd]
      first | exact hw ▸ h.waitingAddr d q | exact h.waitingLen d q

/-- A MemWrite to an address of ADDR_W bits keeps both buffers in canonical form. -/
theorem State.copyOut_wf {s : State} (hk : Memory.wf s.addrW s.kernel) (hu : Memory.wf s.addrW s.user) (sp : Space)
    {a : Addr} (ha : a < 2 ^ s.addrW) :
    Memory.wf (s.copyOut sp a).addrW (s.copyOut sp a).kernel ∧ Memory.wf (s.copyOut sp a).addrW (s.copyOut sp a).user := by
  cases sp <;> simp only [State.copyOut_kernel, State.copyOut_user, State.copyOut_addrW] <;>
    exact ⟨by split_ifs <;> first | exact Memory.wf_afterPut hk ha _ _ | exact hk,
      by split_ifs <;> first | exact Memory.wf_afterPut hu ha _ _ | exact hu⟩

/-- The copies of a READ keep both buffers in canonical form. -/
theorem copyMany_wf (sp : Space) (addr : Addr) (k : Nat) :
    ∀ (i : Count) (s : State), Memory.wf s.addrW s.kernel → Memory.wf s.addrW s.user →
      Memory.wf (copyMany sp addr k i s).addrW (copyMany sp addr k i s).kernel ∧
        Memory.wf (copyMany sp addr k i s).addrW (copyMany sp addr k i s).user := by
  induction k with
  | zero => exact fun _ _ hk hu => ⟨hk, hu⟩
  | succ k ih =>
    intro i s hk hu
    have h := State.copyOut_wf hk hu sp (byteAddr_lt s.addrW addr i)
    exact ih _ _ h.1 h.2

end Sys2Proof.Machine
end

