-- ==== Sys2Proof/Laws/PerInstr.lean ====
section
/-! SUPPORT. Statements about every operation as syntax, one lemma per constructor: an operation has an encoding exactly
where it is a request, and the encoding is not a reserved one (spec/30_encoding.md R68, R69, R74). -/

namespace Sys2Proof.Laws.Encoding

/-- An operation is encoded exactly where it is a request, and never in a reserved cmd. -/
def Statement (i : Instr) : Prop :=
  ((encode i).isSome = i.isRequest) ∧ ∀ r, encode i = some r → r.wellFormed = true

theorem read (space : Space) (len : Len) (addr : Addr) : Statement (.read space len addr) := by
  refine ⟨rfl, fun r h => ?_⟩
  cases h
  simp only [RawRequest.wellFormed, RawRequest.opDefined, RawRequest.resClear, RawRequest.op, RawRequest.res]
  cases space <;> decide

theorem write (space : Space) (len : Len) (addr : Addr) : Statement (.write space len addr) := by
  refine ⟨rfl, fun r h => ?_⟩
  cases h
  simp only [RawRequest.wellFormed, RawRequest.opDefined, RawRequest.resClear, RawRequest.op, RawRequest.res]
  cases space <;> decide

theorem init : Statement .init := ⟨rfl, fun _ h => by cases h⟩

theorem next (s : Byte) : Statement (.next s) := ⟨rfl, fun _ h => by cases h⟩

end Sys2Proof.Laws.Encoding
end

