-- ==== Sys2Proof/Tests/Slice0.lean ====
section
/-! SUPPORT. The model's own tests: each expected value is the spec's (spec/95_test_vectors.md or a rule), and the witnesses
that meet the hypotheses of the statements. -/

namespace Sys2Proof.Tests

open Sys2Proof.Machine

/-! ## States to test on -/

/-- After reset, with three callers. -/
def st0 : State := { State.reset with nCallers := 3 }

/-- ... where the next MemWrites answer Ok, eight times. -/
def stOk : State := { st0 with puts := List.replicate 8 .ok }

/-- ... where the third MemWrite fails (S5). -/
def stFail : State := { st0 with puts := [.ok, .ok, .fail (-14)] }

/-- Caller 1 holds the lock with a READ of two bytes, none copied yet; caller 2 is done. -/
def stBusy : State :=
  { st0 with
    lock := .held 1
    txn := some ⟨1, .read, .user, 0x5000, 2, 0⟩
    callers := [(1, .active), (2, .done (-1))]
    puts := [.ok, .ok] }

/-- Caller 1 holds the lock with a WRITE. -/
def stWriting : State :=
  { st0 with
    lock := .held 1
    txn := some ⟨1, .write, .user, 0x6000, 1, 0⟩
    callers := [(1, .active)]
    gets := [.ok 0x55] }

/-- Callers 1 and 2 wait; the lock is free. -/
def stWaiting : State :=
  { st0 with callers := [(1, .waiting ⟨.write, .user, 1, 0x6000⟩), (2, .waiting ⟨.read, .user, 9, 0x5000⟩)] }

/-! ## Decoding (words written out from R68) -/

/-- READ.U: res 00000, s 1, op 01. -/
theorem test_decode_read_user : decode ⟨0b00000101, 8, 0x1000⟩ = .ok (.read .user 8 0x1000) := by decide
/-- READ.K: res 00000, s 0, op 01. -/
theorem test_decode_read_kernel : decode ⟨0b00000001, 12, 0x3000⟩ = .ok (.read .kernel 12 0x3000) := by decide
/-- WRITE.U: res 00000, s 1, op 10. -/
theorem test_decode_write_user : decode ⟨0b00000110, 1, 0x2000⟩ = .ok (.write .user 1 0x2000) := by decide
/-- WRITE.K: res 00000, s 0, op 10. -/
theorem test_decode_write_kernel : decode ⟨0b00000010, 1, 0x100⟩ = .ok (.write .kernel 1 0x100) := by decide
/-- V2: a reserved bit set beside a READ's other bits. -/
theorem test_decode_reserved_bit : decode ⟨0b10000001, 1, 0⟩ = .error (.reserved 0x81) := by decide
/-- The table's rows READ and WRITE, as one word. -/
theorem test_decode_table_read : decodeTableWord 8 0x01 = some (.read .kernel 0 0) := by decide
theorem test_decode_table_write : decodeTableWord 8 0x06 = some (.write .user 0 0) := by decide
/-- INIT and NEXT have no encoding (R69, R74). -/
theorem test_encode_init : encode .init = none := by decide
theorem test_encode_next : encode (.next 0x2A) = none := by decide
/-- R76: READ.U is cmd 0x05 and WRITE.K is cmd 0x02. -/
theorem test_encode_read : encode (.read .user 8 0x1000) = some ⟨0x05, 8, 0x1000⟩ := by decide
theorem test_encode_write : encode (.write .kernel 1 0x100) = some ⟨0x02, 1, 0x100⟩ := by decide

/-! ## Well-formedness: a term that each check refuses -/

theorem test_ill_formed_op_00 : (⟨0x04, 1, 0⟩ : RawRequest).opDefined = false := by decide
theorem test_ill_formed_op_11 : (⟨0x07, 1, 0⟩ : RawRequest).wellFormed = false := by decide
theorem test_ill_formed_res : (⟨0x09, 1, 0⟩ : RawRequest).resClear = false := by decide
theorem test_well_formed : (⟨0x05, 1, 0⟩ : RawRequest).wellFormed = true := by decide
theorem test_init_is_no_request : Instr.init.isRequest = false := by decide
theorem test_next_is_no_request : (Instr.next 0).isRequest = false := by decide

/-! ## Operations (V1, V3, V4, V5) -/

/-- V1: all four taps set, XOR 0. -/
theorem test_next_all_taps : lfsrNext 0x1D = 0x0E := by decide
/-- V1: bit 7 is no tap, and PREV(0x80) = 0x01. -/
theorem test_next_top_bit : lfsrNext 0x80 = 0x40 ∧ lfsrPrev 0x80 = 0x01 := by decide

/-- V3: len 8 with answers ok ok fail responds 2, copies 95 CA and leaves the seed E5. -/
theorem test_read_short :
    (nextOf (exec (.read .user 8 0x1000) stFail)).map (fun t => (t.caller 0, t.seed, t.user)) =
      some (.done 2, 0xE5, [(0x1000, 0x95), (0x1001, 0xCA)]) := by decide
/-- V3: addr = 2^64 - 2 wraps to address 0; the bytes are 95 CA E5. -/
theorem test_read_wraps :
    (nextOf (exec (.read .kernel 3 0xFFFFFFFFFFFFFFFE) stOk)).map (fun t => (t.caller 0, t.kernel)) =
      some (.done 3, [(0, 0xE5), (0xFFFFFFFFFFFFFFFE, 0x95), (0xFFFFFFFFFFFFFFFF, 0xCA)]) := by decide

/-- R9, R72: with ADDR_W = 4 the third byte of a READ at 14 goes to address 0. -/
theorem test_read_wraps_narrow :
    (nextOf (exec (.read .user 3 14) { stOk with addrW := 4 })).map (fun t => t.user) =
      some [(0, 0xE5), (14, 0x95), (15, 0xCA)] := by decide
/-- R67, R72: of a larger number the port takes the ADDR_W bits, so a WRITE at 2^64 + 5 reads its byte at 5. -/
theorem test_write_address_bits :
    (nextOf (exec (.write .user 1 (2 ^ 64 + 5)) { st0 with gets := [.ok 1] })).map (·.copies) =
      some [.memRead .user 5 (.ok 1)] := by decide

/-- V4: fail(+5) is forwarded unchanged and the seed stays. -/
theorem test_write_fault :
    (nextOf (exec (.write .user 1 0x7000) { st0 with gets := [.fail 5] })).map (fun t => (t.caller 0, t.seed, t.lock)) =
      some (.done 5, 0x2A, .free) := by decide
/-- V4: a WRITE with len = 2 responds -1 at once while another caller holds the lock. -/
theorem test_write_bad_length :
    (nextOf (exec (.write .user 2 0x2000) stBusy)).map (fun t => (t.caller 0, t.lock)) =
      some (.done (-1), .held 1) := by decide

/-- R79: a model with STATUS_EINVAL = -22 responds that. -/
theorem test_write_bad_length_parameter :
    (nextOf (exec (.write .user 0 0x2000) { st0 with einval := -22 })).map (fun t => t.caller 0) =
      some (.done (-22)) := by decide

/-- V5: INIT gives the seed 2A, the lock Free, no txn. -/
theorem test_init :
    (nextOf (exec .init State.powerUp)).map (fun t => (t.seed, t.lock, t.txn, t.initialised)) =
      some (0x2A, .free, none, true) := by decide
/-- V5: a reserved cmd is refused before INIT too, where a request is FAULT_UNINIT. -/
theorem test_reserved_before_init :
    step (State.powerUp.setSchedule [.request 0 ⟨0x03, 0, 0⟩]) = .refused (.reservedEncoding 0x03) := rfl
theorem test_request_before_init :
    step (State.powerUp.setSchedule [.request 0 ⟨0x06, 5, 0x1000⟩]) = .fault .uninit := rfl

/-- The request that withFetchWord places runs in the very next step: a READ of no byte responds 0. -/
theorem test_fetch_word :
    (nextOf (step (State.reset.withFetchWord 8 0x05))).map (fun t => (t.caller 0, t.seed)) = some (.done 0, 0x2A) := by
  decide

/-! ## Witnesses: the hypotheses of the statements can be met -/

theorem witness_step_request :
    (st0.setSchedule [.request 2 ⟨0x05, 8, 0⟩]).schedule = .request 2 ⟨0x05, 8, 0⟩ :: [] ∧
      decode ⟨0x05, 8, 0⟩ = .ok (.read .user 8 0) := by decide
theorem witness_step_init : (State.powerUp.setSchedule [.init]).schedule = .init :: [] := rfl
theorem witness_cmd_read : (0x05 : Byte).extractLsb' 3 5 = 0 ∧ (0x05 : Byte).extractLsb' 0 2 = 0b01 := by decide
theorem witness_cmd_write : (0x06 : Byte).extractLsb' 3 5 = 0 ∧ (0x06 : Byte).extractLsb' 0 2 = 0b10 := by decide
theorem witness_cmd_reserved :
    (0xFF : Byte).extractLsb' 3 5 ≠ 0 ∧ (0x04 : Byte).extractLsb' 0 2 = 0b00 ∧ (0x03 : Byte).extractLsb' 0 2 = 0b11 := by
  decide
theorem witness_reserved :
    (st0.setSchedule [.request 0 ⟨0x03, 0, 0⟩]).schedule = .request 0 ⟨0x03, 0, 0⟩ :: [] ∧
      (0x03 : Byte).extractLsb' 0 2 = 0b11 := by decide
theorem witness_reserved_issue :
    (st0.setSchedule [.issue 0 ⟨0x08, 0, 0⟩]).schedule = .issue 0 ⟨0x08, 0, 0⟩ :: [] ∧
      (0x08 : Byte).extractLsb' 3 5 ≠ 0 := by decide

theorem witness_ready : 4 ≤ stOk.addrW ∧ State.Ready stOk ∧ stOk.lock = .free ∧ Rising stOk.callers ∧ stOk.seed ≠ 0 :=
  ⟨by decide, by unfold State.Ready; decide, by decide, by decide, by decide⟩
/-- Eight copies that succeed, for a len beyond the clamp, and for len 0. -/
theorem witness_read_ok : ∀ j < min (9 : Len).toNat 8, stOk.putAnswerAt j = .ok := by decide
theorem witness_read_nothing : ∀ j < min (0 : Len).toNat 8, st0.putAnswerAt j = .ok := by decide
/-- A first failure in the middle, and one at the first byte. -/
theorem witness_read_fail :
    State.Ready stFail ∧ stFail.lock = .free ∧ 2 < min (8 : Len).toNat 8 ∧ (∀ j < 2, stFail.putAnswerAt j = .ok) ∧
      stFail.putAnswerAt 2 = .fail (-14) := ⟨by unfold State.Ready; decide, by decide, by decide, by decide, by decide⟩
theorem witness_read_fail_first :
    0 < min (8 : Len).toNat 8 ∧ ({ st0 with puts := [.fail 3] } : State).putAnswerAt 0 = .fail 3 := by decide
theorem witness_zero_seed :
    State.Ready { stOk with seed := 0 } ∧ ({ stOk with seed := 0 } : State).lock = .free :=
  ⟨by unfold State.Ready; decide, by decide⟩
theorem witness_lock_held : State.Ready stBusy ∧ stBusy.lock = .held 1 := ⟨by unfold State.Ready; decide, by decide⟩
theorem witness_read_next : ∃ t, exec (.read .user 8 0x1000) stFail = .next t := ⟨_, rfl⟩
theorem witness_write_next : ∃ t, exec (.write .user 2 0x1000) stBusy = .next t := ⟨_, rfl⟩

theorem witness_write_ok :
    State.Ready { st0 with gets := [.ok 0x01] } ∧ ({ st0 with gets := [.ok 0x01] } : State).lock = .free ∧
      ({ st0 with gets := [.ok 0x01] } : State).getAnswer = .ok 0x01 := ⟨by unfold State.Ready; decide, by decide, by decide⟩
theorem witness_write_fail :
    State.Ready { st0 with gets := [.fail 5] } ∧ ({ st0 with gets := [.fail 5] } : State).lock = .free ∧
      ({ st0 with gets := [.fail 5] } : State).getAnswer = .fail 5 := ⟨by unfold State.Ready; decide, by decide, by decide⟩
theorem witness_bad_lengths : (0 : Len) ≠ 1 ∧ (2 : Len) ≠ 1 ∧ (0xFFFFFFFF : Len) ≠ 1 := by decide

theorem witness_before_init : State.powerUp.initialised = false := rfl
theorem witness_after_init : State.reset.initialised = true := rfl
theorem witness_request_before_init :
    decodeRequest ⟨0x06, 5, 0⟩ = .ok ⟨.write, .user, 5, 0⟩ ∧
      (State.powerUp.setSchedule [.request 0 ⟨0x06, 5, 0⟩]).initialised = false := by decide
theorem witness_busy :
    ({ stBusy with requester := 2 } : State).requester < 3 ∧ ({ stBusy with requester := 2 } : State).caller 2 ≠ .idle := by
  decide
theorem witness_no_such_caller : ({ st0 with requester := 3 } : State).nCallers ≤ 3 := by decide

theorem witness_issue :
    decodeRequest ⟨0x06, 2, 0⟩ = .ok ⟨.write, .user, 2, 0⟩ ∧ st0.initialised = true ∧ 2 < st0.nCallers ∧
      st0.caller 2 = .idle := by decide
theorem witness_acquire :
    stWaiting.initialised = true ∧ stWaiting.caller 2 = .waiting ⟨.read, .user, 9, 0x5000⟩ ∧ stWaiting.lock = .free := by
  decide
theorem witness_acquire_held :
    ({ stWaiting with lock := .held 0 } : State).caller 1 = .waiting ⟨.write, .user, 1, 0x6000⟩ := by decide
theorem witness_read_byte :
    stBusy.initialised = true ∧ stBusy.txn = some ⟨1, .read, .user, 0x5000, 2, 0⟩ ∧ (0 : Count) < 2 ∧
      stBusy.putAnswer = .ok := by decide
theorem witness_read_byte_fails : ({ stBusy with puts := [.fail 7] } : State).putAnswer = .fail 7 := by decide
theorem witness_read_end :
    ({ stBusy with txn := some ⟨1, .read, .user, 0x5000, 2, 2⟩ } : State).txn = some ⟨1, .read, .user, 0x5000, 2, 2⟩ := by
  decide
theorem witness_write_copy :
    stWriting.initialised = true ∧ stWriting.txn = some ⟨1, .write, .user, 0x6000, 1, 0⟩ ∧
      stWriting.getAnswer = .ok 0x55 := by decide
/-! Steps that are not enabled: each hypothesis at the value where it meets the enabling condition. -/

theorem witness_acquire_not_waiting : ∀ q, stBusy.caller 2 ≠ .waiting q := fun q h => by
  simp [show stBusy.caller 2 = .done (-1) from rfl] at h
/-- READ_BYTE at i = n, and READ_END one before it. -/
theorem witness_read_byte_at_end :
    (⟨1, .read, .user, 0x5000, 2, 2⟩ : Txn).n ≤ (2 : Count) ∧ ¬ (1 : Count) = (⟨1, .read, .user, 0x5000, 2, 1⟩ : Txn).n := by
  decide
/-- The other kind of operation, another caller's, and none. -/
theorem witness_other_kind :
    (∀ x, stWriting.txn = some x → x.op ≠ .read) ∧ (∀ x, stBusy.txn = some x → x.op ≠ .write) ∧
      (∀ x, stBusy.txn = some x → x.owner ≠ 2) ∧ ∀ x, st0.txn ≠ some x :=
  ⟨fun x h => by cases h; decide, fun x h => by cases h; decide, fun x h => by cases h; decide, fun x h => by cases h⟩
theorem witness_take_not_done : ∀ st, stWaiting.caller 1 ≠ .done st := fun st h => by
  simp [show stWaiting.caller 1 = .waiting ⟨.write, .user, 1, 0x6000⟩ from rfl] at h
/-- A caller waiting, and operations in flight, before INIT: states that no run reaches. -/
theorem witness_before_init_waiting :
    ({ stWaiting with initialised := false } : State).caller 2 = .waiting ⟨.read, .user, 9, 0x5000⟩ ∧
      ({ stBusy with initialised := false } : State).txn = some ⟨1, .read, .user, 0x5000, 2, 0⟩ ∧
      ({ stWriting with initialised := false } : State).txn = some ⟨1, .write, .user, 0x6000, 1, 0⟩ := by decide
/-- An address that is not, and the last one that is, of ADDR_W bits. -/
theorem witness_address_bits : ¬ (2 ^ 64 : Nat) < 2 ^ st0.addrW ∧ 2 ^ 64 - 1 < 2 ^ st0.addrW ∧ 4 ≤ st0.addrW := by decide

theorem witness_take : Rising stBusy.callers ∧ stBusy.caller 2 = .done (-1) := by decide

/-- The invariant with a READ in flight, with a WRITE in flight, and with two callers waiting. -/
theorem inv_stBusy : stBusy.Inv :=
  State.inv_of_entries (by decide) (by decide) (by decide) ⟨List.Pairwise.nil, by decide⟩ ⟨List.Pairwise.nil, by decide⟩
    (by decide) (by decide) (fun _ => rfl) (by decide)
    (fun t ht => by cases ht; exact ⟨rfl, ⟨by decide, by decide, by decide⟩, by decide⟩)
    (by simp [stBusy]) (fun h => by cases h) (fun _ => rfl)

theorem inv_stWriting : stWriting.Inv :=
  State.inv_of_entries (by decide) (by decide) (by decide) ⟨List.Pairwise.nil, by decide⟩ ⟨List.Pairwise.nil, by decide⟩
    (by decide) (by decide) (fun _ => rfl) (by decide)
    (fun t ht => by cases ht; exact ⟨rfl, ⟨by decide, by decide, by decide⟩, by decide⟩)
    (by simp [stWriting]) (fun h => by cases h) (fun _ => rfl)

theorem inv_stWaiting : stWaiting.Inv :=
  State.inv_of_entries (by decide) (by decide) (by decide) ⟨List.Pairwise.nil, by decide⟩ ⟨List.Pairwise.nil, by decide⟩
    (by decide) (by decide) (fun _ => trivial) (by decide)
    (fun t ht => by cases ht)
    (by simp [stWaiting, st0, State.reset, Config.defaultAddrW]) (fun h => by cases h) (fun _ => rfl)

/-- The same with whatever moves, and answers, to come. -/
theorem witness_inv_reading (ms : List Move) (ps : List PutAnswer) :
    State.Inv { stBusy with schedule := ms, puts := ps } :=
  inv_stBusy.congr rfl rfl rfl rfl rfl rfl rfl rfl rfl rfl
theorem witness_inv_writing (ms : List Move) : State.Inv (stWriting.setSchedule ms) := inv_stWriting.setSchedule ms
theorem witness_inv_waiting (ms : List Move) : State.Inv (stWaiting.setSchedule ms) := inv_stWaiting.setSchedule ms

/-! ... and from them a step that changes a caller's state, for each way R22 gives. -/

theorem witness_issue_changes :
    (nextOf (step { stBusy with schedule := [.issue 0 ⟨0x06, 0, 0⟩] })).map (·.caller 0) = some (.done (-1)) ∧
      stBusy.caller 0 = .idle := by decide
theorem witness_acquire_changes :
    (nextOf (step (stWaiting.setSchedule [.acquire 2]))).map (·.caller 2) = some .active ∧
      stWaiting.caller 2 = .waiting ⟨.read, .user, 9, 0x5000⟩ := by decide
theorem witness_copy_changes :
    (nextOf (step { stBusy with schedule := [.readByte 1], puts := [.fail 7] })).map (·.caller 1) = some (.done 0) ∧
      stBusy.caller 1 = .active := by decide
theorem witness_take_changes :
    (nextOf (step { stBusy with schedule := [.take 2] })).map (·.caller 2) = some .idle ∧
      stBusy.caller 2 = .done (-1) := by decide
/-- A TAKE does not withdraw a waiting caller's request (R102). -/
theorem witness_take_of_waiting :
    (nextOf (step (stWaiting.setSchedule [.take 1]))).map (·.caller 1) = some (stWaiting.caller 1) := by decide
/-- An operation that a step leaves in flight, and one that a step ends. -/
theorem witness_operation_goes_on :
    (nextOf (step { stBusy with schedule := [.readByte 1] })).map (·.txn) =
      some (some ⟨1, .read, .user, 0x5000, 2, 1⟩) := by decide
theorem witness_operation_ends :
    (nextOf (step (stWriting.setSchedule [.writeCopy 1]))).map (fun t => (t.txn, t.caller 1)) =
      some (none, .done 1) := by decide

/-- ... and a step from the first of them that changes the seed, made by the holder. -/
theorem witness_step_changes_seed :
    (nextOf (step { stBusy with schedule := [.readByte 1] })).map (·.seed) = some 0x95 ∧ stBusy.seed ≠ 0x95 := by decide
/-- ... and a run in which another caller's moves stand between the holder's, the lock held to the end. -/
theorem witness_interleaved :
    (nextOf (runMoves [.issue 0 ⟨0x06, 1, 0x6000⟩, .readByte 1, .take 2, .acquire 0] stBusy)).map (·.lock) =
      some (.held 1) := by decide
theorem witness_criticalMove : criticalMove 1 (.readByte 1) := .inl rfl
theorem witness_txn_in_flight : stBusy.initialised = true ∧ stBusy.txn = some ⟨1, .read, .user, 0x5000, 2, 0⟩ := by decide
theorem witness_decode_write : decode ⟨0x06, 1, 0⟩ = .ok (.write .user 1 0) ∧ st0.txn = none := by decide
theorem witness_init_step :
    (nextOf (step (State.powerUp.setSchedule [.init]))).map (·.initialised) = some true := by decide
theorem witness_no_move : stOk.schedule = [] := rfl
theorem witness_buffers : stOk.kernel = replay .kernel stOk.copies ∧ stOk.user = replay .user stOk.copies ∧
    (nextOf (step stOk)).isSome = true := by decide

end Sys2Proof.Tests
end

section
/-! PROOFS. Scope: a step with no move to come (spec/00_scope.md R7, spec/10_state.md R16), and the address bits that the
request port takes (spec/00_scope.md R11, spec/30_encoding.md R67, R72). -/

namespace Sys2Proof.Machine

/-! ## With no move to come -/

/-- With the schedule at its end, what is fetched is the state as it is (R16, log 2). -/
theorem fetch_of_schedule_nil {s : State} (h : s.schedule = []) : fetch s = .answer (.next s) := by
  simp only [fetch, h]

/-- Settles O48: the step answers what is fetched, and with no move to come that is the state itself. -/
theorem withoutAMoveNothingChanges : Obligations.WithoutAMoveNothingChanges := by
  intro s h
  simp only [step, fetch_of_schedule_nil h]

/-! ## The bits of an address -/

/-- The port shows the same request for an address and for its ADDR_W bits. -/
theorem State.onPort_addrBits (s : State) (op : Op) (sp : Space) (len : Len) (addr : Addr) :
    s.onPort ⟨op, sp, len, addrBits s.addrW addr⟩ = s.onPort ⟨op, sp, len, addr⟩ := by
  simp only [State.onPort, addrBits_addrBits]

/-- A request whose address has ADDR_W bits stands on the port as it is (R67). -/
theorem State.onPort_of_lt {s : State} {q : Request} (h : q.addr < 2 ^ s.addrW) : s.onPort q = q := by
  simp only [State.onPort, addrBits_of_lt h]

/-- READ uses its address only as it stands on the port. -/
theorem execRead_addrBits (sp : Space) (len : Len) (addr : Addr) (s : State) :
    execRead sp len (addrBits s.addrW addr) s = execRead sp len addr s := by
  simp only [execRead, State.onPort_addrBits]

/-- WRITE uses its address only as it stands on the port. -/
theorem execWrite_addrBits (sp : Space) (len : Len) (addr : Addr) (s : State) :
    execWrite sp len (addrBits s.addrW addr) s = execWrite sp len addr s := by
  simp only [execWrite, State.onPort_addrBits]

/-- Settles O51: both operations see the address only through the port, which takes its ADDR_W bits. -/
theorem onlyTheAddressBitsCount : Obligations.OnlyTheAddressBitsCount := by
  intro s sp len addr
  refine ⟨?_, ?_, ?_⟩
  · exact (execRead_addrBits sp len addr s).symm
  · exact (execWrite_addrBits sp len addr s).symm
  · exact fun h _ => State.onPort_of_lt h

end Sys2Proof.Machine
end

section
/-! PROOFS. What one move makes of the state, once and for all (spec/41_device_adapter.md R49, R37, R43, R91): the
inversion of `step` that the statements about every step are read off. -/

namespace Sys2Proof.Machine

/-! ## The operations, as far as every step needs them -/

/-- The state after INIT (R91). -/
@[simps] def State.afterInit (s : State) : State :=
  { s with
    lock := .free
    registration := some Config.devSlot
    seed := Config.resetSeed
    txn := none
    callers := []
    initialised := true }

/-- INIT, once and for all: before initialisation only, and then with its whole effect (R91, R94). -/
theorem execInit_eq_next {s t : State} : execInit s = .next t ↔ s.initialised = false ∧ t = s.afterInit := by
  unfold execInit
  cases s.initialised
  · simp [State.afterInit, eq_comm]
  · simp

/-- What ISSUE can make of cs[c], with `w` = ADDR_W: a request that may wait for the lock, or a status (R44, R49, R67). -/
inductive CallerState.Issued (w : Nat) : CallerState → Prop where
  | waiting {q : Request} (haddr : q.addr < 2 ^ w) (hlen : q.op = .write → q.len = 1) : Issued w (.waiting q)
  | done (st : Status) : Issued w (.done st)

theorem CallerState.Issued.ne_active {w : Nat} {v : CallerState} (h : v.Issued w) : v ≠ .active := by
  cases h <;> simp

/-- ISSUE of a request on the port leaves such a state. -/
theorem issued_issuedState (s : State) (q : Request) : (issuedState s.einval (s.onPort q)).Issued s.addrW := by
  unfold issuedState
  split_ifs with h
  · exact .done _
  · refine .waiting (addrBits_lt s.addrW q.addr) fun hop => ?_
    simpa [hop, writeLenOk] using h

/-- A caller whose request is admitted is Idle (R22). -/
theorem State.idle_of_admitted {s : State} {c : CallerId} (h : s.admissionFault c = none) : s.caller c = .idle :=
  have ⟨_, _, hidle⟩ := State.admissionFault_eq_none.1 h
  hidle

/-- READ under the lock copies some bytes and finishes, whatever the answers. -/
theorem readLocked_shape (c : CallerId) (sp : Space) (len : Len) (addr : Addr) (s : State) :
    ∃ k st, readLocked c sp len addr s = (copyMany sp addr k 0 s).finish c st := by
  obtain ⟨k, hk, hok, hst⟩ := s.exists_first_failure (min len.toNat 8)
  exact ⟨_, _, readLocked_eq c sp len addr s hk hok (hst.imp id And.right)⟩

/-- WRITE under the lock makes one MemRead, sets the seed (perhaps to what it was) and finishes, whatever the answer. -/
theorem writeLocked_shape (c : CallerId) (sp : Space) (addr : Addr) (s : State) :
    ∃ v st, writeLocked c sp addr s = ((s.memRead sp addr).setSeed v).finish c st :=
  State.finishWrite_shape _ _ _

/-! ## What a move can do -/

/-- What a move makes of the state `s` from whose schedule it has been taken. -/
inductive MoveEffect (s : State) : Move → State → Prop where
  /-- a step that is not enabled (log 3) -/
  | skipped (m : Move) : MoveEffect s m s
  /-- INIT (R91) -/
  | initialised (hi : s.initialised = false) : MoveEffect s .init s.afterInit
  /-- ISSUE alone (R49) -/
  | issued {c : CallerId} {v : CallerState} (r : RawRequest) (hc : s.admissionFault c = none)
      (hv : v.Issued s.addrW) : MoveEffect s (.issue c r) (s.setCaller c v)
  /-- a whole request that goes no further than ISSUE (R19, R44) -/
  | requestIssued {c : CallerId} {v : CallerState} (r : RawRequest) (hc : s.admissionFault c = none)
      (hv : v.Issued s.addrW) : MoveEffect s (.request c r) ((s.setRequester c).setCaller c v)
  /-- a whole READ (R37) -/
  | readRun {c : CallerId} {q : Request} (r : RawRequest) (hc : s.admissionFault c = none)
      (hq : (CallerState.waiting q).Issued s.addrW) (hl : s.lock = .free) (sp : Space) (addr : Addr) (k : Nat) (st : Status) :
      MoveEffect s (.request c r) ((copyMany sp addr k 0 ((s.setRequester c).entered q)).finish c st)
  /-- a whole WRITE of length 1 (R43) -/
  | writeRun {c : CallerId} {q : Request} (r : RawRequest) (hc : s.admissionFault c = none)
      (hq : (CallerState.waiting q).Issued s.addrW) (hl : s.lock = .free) (sp : Space) (addr : Addr) (v : Byte) (st : Status) :
      MoveEffect s (.request c r) (((((s.setRequester c).entered q).memRead sp addr).setSeed v).finish c st)
  /-- ACQUIRE of a waiting caller (R49) -/
  | acquired {c : CallerId} {q : Request} (hc : s.caller c = .waiting q) (hi : s.initialised = true) (hl : s.lock = .free) :
      MoveEffect s (.acquire c) (s.acquire c q)
  /-- READ_BYTE answered Ok (R49) -/
  | byteCopied {x : Txn} (hx : s.txn = some x) (hop : x.op = .read) (hlt : x.i < x.n) (hans : s.putAnswer = .ok) :
      MoveEffect s (.readByte x.owner)
        ((s.copyOut x.space (byteAddr s.addrW x.addr x.i)).setTxn (some { x with i := x.i + 1 }))
  /-- READ_BYTE answered Fail (R40, R49) -/
  | byteFailed {x : Txn} {st : Status} (hx : s.txn = some x) (hop : x.op = .read) (hlt : x.i < x.n)
      (hans : s.putAnswer = .fail st) :
      MoveEffect s (.readByte x.owner)
        ((s.copyOut x.space (byteAddr s.addrW x.addr x.i)).finish x.owner (statusOfCount x.i))
  /-- READ_END (R49) -/
  | readEnded {x : Txn} (hx : s.txn = some x) (hop : x.op = .read) (hi : x.i = x.n) :
      MoveEffect s (.readEnd x.owner) (s.finish x.owner (statusOfCount x.n))
  /-- WRITE_COPY, whatever its answer (R49) -/
  | byteTaken {x : Txn} (hx : s.txn = some x) (hop : x.op = .write) (v : Byte) (st : Status) :
      MoveEffect s (.writeCopy x.owner) (((s.memRead x.space x.addr).setSeed v).finish x.owner st)
  /-- TAKE (R49) -/
  | taken {c : CallerId} {st : Status} (hc : s.caller c = .done st) :
      MoveEffect s (.take c) ((s.setCaller c .idle).receive c st)

section
variable {s t : State} {c : CallerId}

theorem moveEffect_of_execRead (r : RawRequest) {sp : Space} {len : Len} {addr : Addr}
    (h : execRead sp len addr (s.setRequester c) = .next t) : MoveEffect s (.request c r) t := by
  obtain ⟨hc, hrun⟩ := execRead_eq_next.1 h
  have hc : s.admissionFault c = none := State.admissionFault_eq_none.2 hc
  have hq : (CallerState.waiting ⟨.read, sp, len, addrBits s.addrW addr⟩).Issued s.addrW :=
    .waiting (addrBits_lt _ _) nofun
  rcases hrun with ⟨hl, rfl⟩ | ⟨-, rfl⟩
  · obtain ⟨k, st, hk⟩ := readLocked_shape c sp len addr
      ((s.setRequester c).entered ⟨.read, sp, len, addrBits s.addrW addr⟩)
    exact hk ▸ .readRun r hc hq hl sp addr k st
  · exact .requestIssued r hc hq

theorem moveEffect_of_execWrite (r : RawRequest) {sp : Space} {len : Len} {addr : Addr}
    (h : execWrite sp len addr (s.setRequester c) = .next t) : MoveEffect s (.request c r) t := by
  by_cases hlen : len = 1
  · subst hlen
    obtain ⟨hc, hrun⟩ := execWrite_one_eq_next.1 h
    have hc : s.admissionFault c = none := State.admissionFault_eq_none.2 hc
    have hq : (CallerState.waiting ⟨.write, sp, 1, addrBits s.addrW addr⟩).Issued s.addrW :=
      .waiting (addrBits_lt _ _) fun _ => rfl
    rcases hrun with ⟨hl, rfl⟩ | ⟨-, rfl⟩
    · obtain ⟨v, st, hv⟩ := writeLocked_shape c sp (addrBits s.addrW addr)
        ((s.setRequester c).entered ⟨.write, sp, 1, addrBits s.addrW addr⟩)
      exact hv ▸ .writeRun r hc hq hl sp _ v st
    · exact .requestIssued r hc hq
  · obtain ⟨hc, rfl⟩ := (execWrite_bad_eq_next hlen).1 h
    exact .requestIssued r (State.admissionFault_eq_none.2 hc) (.done _)

theorem moveEffect_of_issue (r : RawRequest) {q : Request} (h : s.issue c (s.onPort q) = .next t) :
    MoveEffect s (.issue c r) t := by
  obtain ⟨hc, rfl⟩ := State.issue_eq_next.1 h
  exact .issued r (State.admissionFault_eq_none.2 hc) (issued_issuedState s q)

theorem moveEffect_of_stepAcquire (h : s.stepAcquire c = .next t) : MoveEffect s (.acquire c) t := by
  obtain rfl | ⟨q, hc, hi, hl, rfl⟩ := State.stepAcquire_cases h
  · exact .skipped _
  · exact .acquired hc hi hl

theorem moveEffect_of_stepReadByte (h : s.stepReadByte c = .next t) : MoveEffect s (.readByte c) t := by
  obtain rfl | ⟨x, hx, rfl, hop, hlt, -, rfl⟩ := State.stepReadByte_cases h
  · exact .skipped _
  · obtain ⟨hans, heq⟩ | ⟨st, hans, heq⟩ := s.readByteOf_cases x
    · exact heq ▸ .byteCopied hx hop hlt hans
    · exact heq ▸ .byteFailed hx hop hlt hans

theorem moveEffect_of_stepReadEnd (h : s.stepReadEnd c = .next t) : MoveEffect s (.readEnd c) t := by
  obtain rfl | ⟨x, hx, rfl, hop, hi, rfl⟩ := State.stepReadEnd_cases h
  · exact .skipped _
  · exact .readEnded hx hop hi

theorem moveEffect_of_stepWriteCopy (h : s.stepWriteCopy c = .next t) : MoveEffect s (.writeCopy c) t := by
  obtain rfl | ⟨x, hx, rfl, hop, -, rfl⟩ := State.stepWriteCopy_cases h
  · exact .skipped _
  · obtain ⟨v, st, heq⟩ := (s.memRead x.space x.addr).finishWrite_shape x.owner s.getAnswer
    exact heq ▸ .byteTaken hx hop v st

theorem moveEffect_of_stepTake (h : s.stepTake c = .next t) : MoveEffect s (.take c) t := by
  obtain rfl | ⟨st, hc, rfl⟩ := State.stepTake_cases h
  · exact .skipped _
  · exact .taken hc

end

/-- A step makes of the state what the move at the head of its schedule makes of it; with no move it leaves it. -/
theorem step_effect {s t : State} (h : step s = .next t) :
    (s.schedule = [] ∧ t = s) ∨ ∃ m rest, s.schedule = m :: rest ∧ MoveEffect (s.setSchedule rest) m t := by
  refine (step_cases h).imp id ?_
  rintro ⟨m, rest, hs, hm⟩
  refine ⟨m, rest, hs, ?_⟩
  rcases hm with ⟨rfl, h⟩ | ⟨c, r, sp, len, addr, rfl, -, h⟩ | ⟨c, r, sp, len, addr, rfl, -, h⟩ | ⟨c, r, q, rfl, -, h⟩ |
    ⟨c, rfl, h⟩ | ⟨c, rfl, h⟩ | ⟨c, rfl, h⟩ | ⟨c, rfl, h⟩ | ⟨c, rfl, h⟩
  · obtain ⟨hi, rfl⟩ := execInit_eq_next.1 h
    exact .initialised hi
  · exact moveEffect_of_execRead r h
  · exact moveEffect_of_execWrite r h
  · exact moveEffect_of_issue r h
  · exact moveEffect_of_stepAcquire h
  · exact moveEffect_of_stepReadByte h
  · exact moveEffect_of_stepReadEnd h
  · exact moveEffect_of_stepWriteCopy h
  · exact moveEffect_of_stepTake h

end Sys2Proof.Machine
end

section
/-! PROOFS. State: the invariant, what the buffers hold, who changes the seed and the callers' states, and the reset values
(spec/10_state.md R16 to R29). -/

namespace Sys2Proof.Machine

/-! ## The invariant -/

/-- A state in which no caller has a request outstanding and nothing is in flight satisfies the invariant; the lock has to be
free only once INIT has been applied (R26). -/
theorem State.inv_of_quiet {s : State} (hn : 0 < s.nCallers) (hw : 4 ≤ s.addrW) (he : s.einval.toInt < 0)
    (hk : Memory.wf s.addrW s.kernel) (hu : Memory.wf s.addrW s.user) (hc : s.callers = []) (hx : s.txn = none)
    (hl : s.initialised = true → s.lock = .free)
    (hr : s.registration = if s.initialised then some Config.devSlot else none) : s.Inv := by
  apply State.inv_of_entries hn hw he hk hu
  case hlock => intro hi; rw [hl hi, hx]; trivial
  all_goals simp_all

/-- Settles O39: nothing is under way in either state. -/
theorem resetSatisfiesTheInvariant : Obligations.ResetSatisfiesTheInvariant := by
  have hn : 0 < Config.nCallers := Nat.succ_pos _
  have he : Config.defaultEinval.toInt < 0 := by decide
  obtain ⟨hk, hu⟩ := State.reset_memory_wf Config.defaultAddrW
  exact ⟨State.inv_of_quiet hn (by decide) he hk hu rfl rfl (fun _ => rfl) rfl,
    State.inv_of_quiet hn (by decide) he hk hu rfl rfl nofun rfl⟩

/-- INIT leads to a state of the invariant. -/
theorem State.Inv.afterInit {s : State} (h : s.Inv) : s.afterInit.Inv :=
  State.inv_of_quiet h.someCaller h.addrWide h.einvalNegative h.kernelWf h.userWf rfl rfl (fun _ => rfl) rfl

/-- ISSUE of an admitted request keeps the invariant. -/
theorem State.Inv.setIssued {s : State} (h : s.Inv) {c : CallerId} {v : CallerState} (hc : s.admissionFault c = none)
    (hv : v.Issued s.addrW) : (s.setCaller c v).Inv := by
  obtain ⟨hi, hlt, hidle⟩ := State.admissionFault_eq_none.1 hc
  refine h.setCaller hi hlt (by simp [hidle]) hv.ne_active fun q hq => ?_
  subst hq
  cases hv with
  | waiting haddr hlen => exact ⟨haddr, hlen⟩

/-- An admitted request that has taken the free lock at once is in a state of the invariant. -/
theorem State.Inv.entered {s : State} (h : s.Inv) {c : CallerId} {q : Request} (hc : s.admissionFault c = none)
    (hq : (CallerState.waiting q).Issued s.addrW) (hl : s.lock = .free) : ((s.setRequester c).entered q).Inv :=
  ((h.setRequester c).setIssued hc hq).acquire (State.admissionFault_eq_none.1 hc).1 hl (State.caller_set_same (by simp) rfl)

/-- A MemWrite of the advanced seed to an address of ADDR_W bits keeps the invariant. -/
theorem State.Inv.copyOut {s : State} (h : s.Inv) (sp : Space) {a : Addr} (ha : a < 2 ^ s.addrW) : (s.copyOut sp a).Inv := by
  obtain ⟨hk, hu⟩ := State.copyOut_wf h.kernelWf h.userWf sp ha
  exact ⟨h.someCaller, h.addrWide, h.einvalNegative, hk, hu, h.callersRising, h.callersListed, h.lockTxn, h.activeOwns,
    h.txnInRange, h.txnAddr, h.waitingAddr, h.waitingLen, h.beforeInit, h.registered⟩

/-- The copies of a READ keep the invariant. -/
theorem State.Inv.copyMany (sp : Space) (addr : Addr) (k : Nat) :
    ∀ (i : Count) (s : State), s.Inv → (copyMany sp addr k i s).Inv := by
  induction k with
  | zero => exact fun _ _ h => h
  | succ k ih => exact fun i s h => ih _ _ (h.copyOut sp (byteAddr_lt s.addrW addr i))

/-- A MemRead, and the seed set to whatever it answered, keep the invariant. -/
theorem State.Inv.memRead_setSeed {s : State} (h : s.Inv) (sp : Space) (a : Addr) (v : Byte) :
    ((s.memRead sp a).setSeed v).Inv :=
  h.congr rfl rfl rfl rfl rfl rfl rfl rfl rfl rfl

/-- FINISH of the operation in flight keeps the invariant. -/
theorem State.Inv.finish_owner {s : State} (h : s.Inv) {x : Txn} (hx : s.txn = some x) (st : Status) :
    (s.finish x.owner st).Inv :=
  h.finish hx rfl rfl rfl h.kernelWf h.userWf rfl rfl rfl st

/-- Replacing the record by one in range, of the same owner and address, keeps the invariant. -/
theorem State.Inv.setTxn {s : State} (h : s.Inv) {x y : Txn} (hx : s.txn = some x) (hown : y.owner = x.owner)
    (haddr : y.addr = x.addr) (hy : txnOk y) : (s.setTxn (some y)).Inv := by
  obtain ⟨hi, hl⟩ := h.lock_of_txn hx
  refine ⟨h.someCaller, h.addrWide, h.einvalNegative, h.kernelWf, h.userWf, h.callersRising, h.callersListed, ?_, ?_, ?_, ?_,
    h.waitingAddr, h.waitingLen, ?_, h.registered⟩
  · intro _
    simp [hl, lockMatches, hown]
  · intro c
    simpa [hx, hown] using h.activeOwns c
  · rintro _ ⟨⟩
    exact hy
  · rintro _ ⟨⟩
    exact haddr ▸ h.txnAddr x hx
  · intro hi'
    simp [hi] at hi'

/-- A READ with bytes left has its record in range after one more. -/
theorem txnOk_next {x : Txn} (h : txnOk x) (hop : x.op = .read) (hlt : x.i < x.n) : txnOk { x with i := x.i + 1 } := by
  obtain ⟨hn, -, -⟩ := h
  exact ⟨hn, by bv_omega, by simp [hop]⟩

/-- Every move keeps the invariant. -/
theorem MoveEffect.inv {s t : State} {m : Move} (e : MoveEffect s m t) (h : s.Inv) : t.Inv := by
  cases e with
  | skipped => exact h
  | initialised => exact h.afterInit
  | issued _ hc hv => exact h.setIssued hc hv
  | requestIssued _ hc hv => exact (h.setRequester _).setIssued hc hv
  | @readRun c q _ hc hq hl sp addr k st =>
    exact (State.Inv.copyMany sp addr k 0 _ (h.entered hc hq hl)).finish_owner (x := txnOf c q) (by simp) st
  | @writeRun c q _ hc hq hl sp addr v st =>
    exact ((h.entered hc hq hl).memRead_setSeed sp addr v).finish_owner (x := txnOf c q) rfl st
  | acquired hc hi hl => exact h.acquire hi hl hc
  | byteCopied hx hop hlt =>
    exact (h.copyOut _ (byteAddr_lt _ _ _)).setTxn hx rfl rfl (txnOk_next (h.txnInRange _ hx) hop hlt)
  | byteFailed hx => exact (h.copyOut _ (byteAddr_lt _ _ _)).finish_owner hx _
  | readEnded hx => exact h.finish_owner hx _
  | byteTaken hx _ v st => exact (h.memRead_setSeed _ _ v).finish_owner hx st
  | @taken c st hc =>
    have hne : s.caller c ≠ .idle := by simp [hc]
    have ht := h.setCaller (h.initialised_of_caller hne) (h.caller_lt hne) (by simp [hc]) (v := .idle) (by simp) (by simp)
    exact ht.congr rfl rfl rfl rfl rfl rfl rfl rfl rfl rfl

/-- Settles O40: the move taken off the schedule keeps the invariant, whatever it is. -/
theorem everyStepKeepsTheInvariant : Obligations.EveryStepKeepsTheInvariant := by
  intro s t h hst
  obtain ⟨-, rfl⟩ | ⟨m, rest, -, e⟩ := step_effect hst
  · exact h
  · exact e.inv (h.setSchedule rest)

/-! ## What the buffers hold -/

/-- Each buffer is the replay of the copies made. -/
def State.BuffersReplayed (s : State) : Prop := ∀ sp, s.buf sp = replay sp s.copies

theorem State.buffersReplayed_iff {s : State} :
    s.BuffersReplayed ↔ s.kernel = replay .kernel s.copies ∧ s.user = replay .user s.copies :=
  ⟨fun h => ⟨h .kernel, h .user⟩, fun ⟨hk, hu⟩ sp => by cases sp <;> assumption⟩

/-- Replaying one more copy. -/
@[simp] theorem replay_append_singleton (sp : Space) (copies : List CopyRecord) (r : CopyRecord) :
    replay sp (copies ++ [r]) = replayOne sp (replay sp copies) r := by
  simp [replay, List.foldl_append]

/-- A MemWrite leaves each buffer as its record replays it (R52). -/
theorem State.copyOut_buf (s : State) (sp sp' : Space) (a : Addr) :
    (s.copyOut sp a).buf sp' = replayOne sp' (s.buf sp') (.memWrite sp a (lfsrNext s.seed) s.putAnswer) := by
  cases h : s.putAnswer with
  | ok => cases sp <;> cases sp' <;> simp [State.buf, replayOne, h, Memory.afterPut]
  | fail st => cases sp' <;> simp [State.buf, replayOne, h, Memory.afterPut]

/-- The clause depends only on the buffers and the copies made. -/
theorem State.BuffersReplayed.congr {s t : State} (h : s.BuffersReplayed) (hk : t.kernel = s.kernel) (hu : t.user = s.user)
    (hc : t.copies = s.copies) : t.BuffersReplayed := by
  rw [State.buffersReplayed_iff] at h ⊢
  rwa [hk, hu, hc]

theorem State.BuffersReplayed.copyOut {s : State} (h : s.BuffersReplayed) (sp : Space) (a : Addr) :
    (s.copyOut sp a).BuffersReplayed := fun sp' => by
  rw [State.copyOut_buf, h sp', State.copyOut_copies, replay_append_singleton]

/-- A MemRead stores nothing (R52). -/
theorem State.BuffersReplayed.memRead {s : State} (h : s.BuffersReplayed) (sp : Space) (a : Addr) :
    (s.memRead sp a).BuffersReplayed := fun sp' => by
  rw [State.memRead_copies, replay_append_singleton]
  exact h sp'

theorem State.BuffersReplayed.copyMany (sp : Space) (addr : Addr) (k : Nat) :
    ∀ (i : Count) (s : State), s.BuffersReplayed → (copyMany sp addr k i s).BuffersReplayed := by
  induction k with
  | zero => exact fun _ _ h => h
  | succ k ih => exact fun i s h => ih _ _ (h.copyOut sp _)

/-- Every move keeps the buffers the replay of the copies made. -/
theorem MoveEffect.buffersReplayed {s t : State} {m : Move} (e : MoveEffect s m t) (h : s.BuffersReplayed) :
    t.BuffersReplayed := by
  cases e with
  | skipped => exact h
  | initialised => exact h.congr rfl rfl rfl
  | issued => exact h.congr rfl rfl rfl
  | requestIssued => exact h.congr rfl rfl rfl
  | @readRun c q _ _ _ _ sp addr k st =>
    have he : ((s.setRequester c).entered q).BuffersReplayed := h.congr rfl rfl rfl
    exact (State.BuffersReplayed.copyMany sp addr k 0 _ he).congr rfl rfl rfl
  | @writeRun c q _ _ _ _ sp addr v st =>
    have he : ((s.setRequester c).entered q).BuffersReplayed := h.congr rfl rfl rfl
    exact (he.memRead sp addr).congr rfl rfl rfl
  | acquired => exact h.congr rfl rfl rfl
  | @byteCopied x => exact (h.copyOut x.space _).congr rfl rfl rfl
  | @byteFailed x => exact (h.copyOut x.space _).congr rfl rfl rfl
  | readEnded => exact h.congr rfl rfl rfl
  | @byteTaken x => exact (h.memRead x.space x.addr).congr rfl rfl rfl
  | taken => exact h.congr rfl rfl rfl

/-- Settles O41: nothing is stored or copied at reset, and every copy a move makes is recorded as it is stored. -/
theorem buffersHoldExactlyTheBytesCopied : Obligations.BuffersHoldExactlyTheBytesCopied := by
  refine ⟨⟨rfl, rfl⟩, fun s t hk hu hst => State.buffersReplayed_iff.1 ?_⟩
  have h : s.BuffersReplayed := State.buffersReplayed_iff.2 ⟨hk, hu⟩
  obtain ⟨-, rfl⟩ | ⟨m, rest, -, e⟩ := step_effect hst
  · exact h
  · exact e.buffersReplayed (h.congr rfl rfl rfl)

/-! ## Who changes the seed -/

/-- Settles O44: of the moves that write the seed, INIT comes before initialisation, a copy step is the owner's of the
operation in flight, who holds the lock, and a whole request finds its caller Idle and the lock free. -/
theorem onlyTheHolderChangesTheSeed : Obligations.OnlyTheHolderChangesTheSeed := by
  intro s t h hst hne
  obtain ⟨-, rfl⟩ | ⟨m, rest, hs, e⟩ := step_effect hst
  · exact absurd rfl hne
  refine ⟨m, rest, hs, ?_⟩
  cases e with
  | initialised hi => exact .inl ⟨rfl, hi⟩
  | byteCopied hx => exact .inr (.inl ⟨_, .inl rfl, (h.lock_of_txn hx).2⟩)
  | byteFailed hx => exact .inr (.inl ⟨_, .inl rfl, (h.lock_of_txn hx).2⟩)
  | byteTaken hx => exact .inr (.inl ⟨_, .inr rfl, (h.lock_of_txn hx).2⟩)
  | readRun r hc _ hl => exact .inr (.inr ⟨_, r, rfl, hl, State.idle_of_admitted hc⟩)
  | writeRun r hc _ hl => exact .inr (.inr ⟨_, r, rfl, hl, State.idle_of_admitted hc⟩)
  | skipped | issued | requestIssued | acquired | readEnded | taken => exact absurd rfl hne

/-! ## Who changes a caller's state -/

/-- Where no caller but d has changed, a caller whose state differs is d. -/
theorem State.eq_of_caller_ne {s t : State} {c d : CallerId} (ht : ∀ e, e ≠ d → t.caller e = s.caller e)
    (hne : t.caller c ≠ s.caller c) : c = d :=
  by_contra fun hcd => hne (ht c hcd)

/-- The same, of a caller table in which cs[d] has been set. -/
theorem State.eq_of_callersSet {s t : State} {c d : CallerId} {v : CallerState} (ht : t.callers = callersSet d v s.callers)
    (hne : t.caller c ≠ s.caller c) : c = d :=
  State.eq_of_caller_ne (fun _ he => State.caller_set_other he ht) hne

/-- FINISH of the operation in flight changes the state of its owner only, from Active, with the lock held. -/
theorem State.Inv.finish_caller_changed {s t : State} (h : s.Inv) {x : Txn} (hx : s.txn = some x)
    (ht : ∀ d, t.caller d = s.caller d) {c : CallerId} {st : Status}
    (hne : (t.finish x.owner st).caller c ≠ s.caller c) : c = x.owner ∧ s.caller c = .active ∧ s.lock = .held c := by
  obtain rfl : c = x.owner := State.eq_of_caller_ne (fun d hd => by rw [State.finish_caller_other _ hd, ht]) hne
  exact ⟨rfl, (h.activeOwns _).2 ⟨x, hx, rfl⟩, (h.lock_of_txn hx).2⟩

/-- A whole request that runs to FINISH changes the state of its caller only. -/
theorem State.entered_finish_caller_other {s t : State} {c : CallerId} (q : Request) (st : Status)
    (ht : ∀ d, t.caller d = ((s.setRequester c).entered q).caller d) (d : CallerId) (hd : d ≠ c) :
    (t.finish c st).caller d = s.caller d :=
  calc (t.finish c st).caller d = ((s.setRequester c).entered q).caller d := by
        rw [State.finish_caller_other _ hd, ht]
    _ = ((s.setRequester c).setCaller c (.waiting q)).caller d := State.acquire_caller_other _ hd q
    _ = s.caller d := State.setCaller_caller_other _ hd _

/-- INIT changes no caller's state: before it every caller is Idle (R29). -/
theorem State.Inv.afterInit_caller {s : State} (h : s.Inv) (hi : s.initialised = false) (c : CallerId) :
    s.afterInit.caller c = s.caller c :=
  State.caller_congr (h.beforeInit hi).2.1.symm c

/-- A caller whose request has been issued is Waiting or Done. -/
theorem CallerState.Issued.waiting_or_done {w : Nat} {v : CallerState} (hv : v.Issued w) (s : State) (c : CallerId) :
    (∃ q, (s.setCaller c v).caller c = .waiting q) ∨ ∃ st, (s.setCaller c v).caller c = .done st := by
  cases hv with
  | @waiting q _ _ => exact .inl ⟨q, State.caller_set_same (by simp) rfl⟩
  | done st => exact .inr ⟨st, State.caller_set_same (by simp) rfl⟩

/-- Settles O52: a move that changes cs[c] is c's own, and c was as the move needs it. -/
theorem callerStatesChangeOnlyAsStated : Obligations.CallerStatesChangeOnlyAsStated := by
  intro s t c h hst hne
  obtain ⟨-, rfl⟩ | ⟨m, rest, hs, e⟩ := step_effect hst
  · exact absurd rfl hne
  refine ⟨m, rest, hs, ?_⟩
  replace h := h.setSchedule rest
  change t.caller c ≠ (s.setSchedule rest).caller c at hne
  cases e with
  | skipped => exact absurd rfl hne
  | initialised hi => exact absurd (h.afterInit_caller hi c) hne
  | byteCopied => exact absurd rfl hne
  | @issued d v r hd hv =>
    obtain rfl : c = d := State.eq_of_callersSet rfl hne
    exact .inl ⟨State.idle_of_admitted hd, ⟨r, .inl rfl⟩, hv.waiting_or_done _ c⟩
  | @requestIssued d v r hd hv =>
    obtain rfl : c = d := State.eq_of_callersSet rfl hne
    exact .inl ⟨State.idle_of_admitted hd, ⟨r, .inr rfl⟩, hv.waiting_or_done _ c⟩
  | @readRun d q r hd _ _ sp addr k st =>
    obtain rfl : c = d := State.eq_of_caller_ne (State.entered_finish_caller_other q st (by simp)) hne
    exact .inl ⟨State.idle_of_admitted hd, ⟨r, .inr rfl⟩, .inr ⟨st, State.finish_caller_same ..⟩⟩
  | @writeRun d q r hd _ _ sp addr v st =>
    obtain rfl : c = d := State.eq_of_caller_ne (State.entered_finish_caller_other q st (by simp)) hne
    exact .inl ⟨State.idle_of_admitted hd, ⟨r, .inr rfl⟩, .inr ⟨st, State.finish_caller_same ..⟩⟩
  | @acquired d q hd _ hl =>
    obtain rfl : c = d := State.eq_of_callersSet (v := .active) rfl hne
    exact .inr (.inl ⟨q, hd, rfl, hl, rfl, rfl, State.acquire_caller_same ..⟩)
  | byteFailed hx =>
    obtain ⟨rfl, hact, hl⟩ := h.finish_caller_changed hx (fun _ => rfl) hne
    exact .inr (.inr (.inl ⟨hact, hl, .inl rfl, rfl, _, State.finish_caller_same ..⟩))
  | readEnded hx =>
    obtain ⟨rfl, hact, hl⟩ := h.finish_caller_changed hx (fun _ => rfl) hne
    exact .inr (.inr (.inl ⟨hact, hl, .inr (.inl rfl), rfl, _, State.finish_caller_same ..⟩))
  | byteTaken hx _ v st =>
    obtain ⟨rfl, hact, hl⟩ := h.finish_caller_changed hx (fun _ => rfl) hne
    exact .inr (.inr (.inl ⟨hact, hl, .inr (.inr rfl), rfl, st, State.finish_caller_same ..⟩))
  | @taken d st hd =>
    obtain rfl : c = d := State.eq_of_callersSet (v := .idle) rfl hne
    exact .inr (.inr (.inr ⟨st, hd, rfl, rfl, State.caller_set_idle h.callersRising rfl⟩))

/-! ## Requests that wait, and requests that are not admitted -/

/-- Settles O15: with the lock held, an admitted operation goes no further than ISSUE. -/
theorem operationsWaitForAHeldLock : Obligations.OperationsWaitForAHeldLock := by
  intro s c sp len addr hready hl
  have hne : s.lock ≠ .free := by simp [hl]
  refine ⟨⟨_, execRead_eq_next.2 ⟨hready, .inr ⟨hne, rfl⟩⟩, ?_, ?_, rfl⟩,
    ⟨_, execWrite_one_eq_next.2 ⟨hready, .inr ⟨hne, rfl⟩⟩, ?_, ?_, rfl⟩⟩
  case refine_1 | refine_3 => exact State.caller_set_same (by simp) rfl
  case refine_2 | refine_4 => exact fun d hd => State.setCaller_caller_other s hd _

/-- A READ or WRITE that is not admitted stops under the name of the reason. -/
theorem exec_request_of_admissionFault {s : State} {f : Fault} (h : s.admissionFault s.requester = some f) (sp : Space)
    (len : Len) (addr : Addr) : exec (.read sp len addr) s = .fault f ∧ exec (.write sp len addr) s = .fault f := by
  simp [exec, execRead, execWrite, State.issue, h]

/-- Settles O32: the admission check names a caller that does not exist, then one that is not Idle. -/
theorem onlyAnIdleCallerIssues : Obligations.OnlyAnIdleCallerIssues := by
  intro s sp len addr hi
  refine ⟨fun hlt hbusy => ?_, fun hge => ?_⟩
  · exact exec_request_of_admissionFault (by simp [State.admissionFault, hi, hlt, hbusy]) sp len addr
  · exact exec_request_of_admissionFault (by simp [State.admissionFault, hi, hge]) sp len addr

/-! ## Reset, and the state before INIT -/

/-- Settles O29: the values stand in the two states, and INIT in powerUp has its whole effect. -/
theorem resetIsTheStateAfterInit : Obligations.ResetIsTheStateAfterInit := by
  have hinit : exec .init State.powerUp = .next State.reset := execInit_eq_next.2 ⟨rfl, rfl⟩
  exact ⟨rfl, rfl, rfl, fun _ => rfl, rfl, rfl, rfl, rfl, by decide, rfl, fun _ => rfl, rfl, rfl, hinit⟩

/-- A move that carries no operation answers for the step. -/
theorem step_of_answer {s : State} {m : Move} {rest : List Move} {o : Host.Outcome State Fault Refusal}
    (hs : s.schedule = m :: rest) (hm : fetchMove m (s.setSchedule rest) = .answer o) : step s = o := by
  simp only [step, fetch, hs, hm]

/-- Settles O50: each of the three steps looks whether INIT has been applied before it reads. -/
theorem seedAndLockAreNotReadBeforeInit : Obligations.SeedAndLockAreNotReadBeforeInit := by
  intro s c rest hi
  refine ⟨fun q hs hc => ?_, fun x hs hx hown hop hlt => ?_, fun x hs hx hown hop => ?_⟩
  · rw [step_of_answer hs rfl]
    simp [State.stepAcquire, hc, hi]
  · rw [step_of_answer hs rfl]
    simp [State.stepReadByte, hx, hown, hop, hlt, hi]
  · rw [step_of_answer hs rfl]
    simp [State.stepWriteCopy, hx, hown, hop, hi]

end Sys2Proof.Machine
end

section
/-! PROOFS. A READ with the lock free, as a whole (spec/41_device_adapter.md R37): the bytes it stores and those it leaves
(spec/20_memory.md R52, R55), and the first bytes of two READs one after the other (spec/20_memory.md R58). -/

namespace Sys2Proof.Machine

/-! ## A READ with the lock free -/

/-- The state a READ of the requester leaves where it finds the lock free: issued, under the lock, finished (R37). -/
def State.afterRead (s : State) (sp : Space) (len : Len) (addr : Addr) : State :=
  readLocked s.requester sp len addr (s.entered ⟨.read, sp, len, addrBits s.addrW addr⟩)

/-- An admitted READ that finds the lock free runs to its status. -/
theorem exec_read_of_free {s : State} (hready : s.Ready) (hl : s.lock = .free) (sp : Space) (len : Len) (addr : Addr) :
    exec (.read sp len addr) s = .next (s.afterRead sp len addr) :=
  execRead_eq_next.2 ⟨hready, .inl ⟨hl, rfl⟩⟩

/-- Issuing a request and taking the lock change no byte of the buffers. -/
theorem State.entered_bufByte (s : State) (q : Request) (sp : Space) (a : Addr) :
    (s.entered q).bufByte sp a = s.bufByte sp a := by
  rw [State.acquire_bufByte, State.setCaller_bufByte]

/-- Issuing a request and taking the lock keep the caller table's keys rising. -/
theorem State.entered_callers_rising (s : State) (hr : Rising s.callers) (q : Request) : Rising (s.entered q).callers :=
  rising_callersSet (rising_callersSet hr s.requester (.waiting q)) s.requester .active

/-! ## What a READ stores -/

/-- The buffers after a READ under the lock are those after the k copies that succeeded: the copy that failed, where there
is one, transfers nothing (R52). -/
theorem readLocked_bufByte (c : CallerId) (sp : Space) (len : Len) (addr : Addr) (s : State) {k : Nat}
    (hk : k ≤ min len.toNat 8) (hok : ∀ j < k, s.putAnswerAt j = .ok)
    (hst : k = min len.toNat 8 ∨ ∃ st, s.putAnswerAt k = .fail st) (sp' : Space) (a : Addr) :
    (readLocked c sp len addr s).bufByte sp' a = (copyMany sp addr k 0 s).bufByte sp' a := by
  rw [readLocked_eq c sp len addr s hk hok hst, State.finish_bufByte]
  split_ifs with hall
  · rfl
  · obtain ⟨st, hfail⟩ := hst.resolve_left hall
    have hans : (copyMany sp addr k 0 s).putAnswer = .fail st := by
      rw [State.putAnswer_eq, copyMany_putAnswerAt, Nat.zero_add, hfail]
    rw [copyMany_succ, State.copyOut_bufByte_fail hans]

/-- Settles O13: the buffers are those after the k copies that succeeded, and these are to distinct addresses. -/
theorem readStoresItsBytes : Obligations.ReadStoresItsBytes := by
  intro s sp len addr k hw hready hl hk hok hst
  have hbuf : ∀ sp' a, (s.afterRead sp len addr).bufByte sp' a =
      (copyMany sp addr k 0 (s.entered ⟨.read, sp, len, addrBits s.addrW addr⟩)).bufByte sp' a :=
    readLocked_bufByte s.requester sp len addr _ hk hok hst
  refine ⟨_, exec_read_of_free hready hl sp len addr, fun j hj => ?_, fun a ha => ?_, fun sp' a hsp => ?_⟩
  · rw [hbuf]
    exact copyMany_bufByte_copied sp addr (s.entered _) hw hj (by omega) (hok j hj)
  · rw [hbuf, copyMany_bufByte_other, State.entered_bufByte]
    exact .inr fun j hj => by rw [count_zero_add]; exact ha j hj
  · rw [hbuf, copyMany_bufByte_other, State.entered_bufByte]
    exact .inl hsp

/-! ## Two READs one after the other -/

/-- A length other than 0, as a number. -/
theorem toNat_pos_of_len_ne_zero {len : Len} (h : len ≠ 0) : 0 < len.toNat :=
  Nat.pos_of_ne_zero fun h0 => h (BitVec.eq_of_toNat_eq h0)

/-- The first copy of a READ under the lock, of a length other than 0: NEXT of the seed, to the address itself (R39). -/
theorem readLocked_first_copy (c : CallerId) (sp : Space) {len : Len} (hlen : len ≠ 0) (addr : Addr) (s : State) :
    ∃ later, (readLocked c sp len addr s).copies =
      s.copies ++ .memWrite sp (addrBits s.addrW addr) (lfsrNext s.seed) (s.putAnswerAt 0) :: later := by
  obtain ⟨k, hk, hok, hst⟩ := s.exists_first_failure (min len.toNat 8)
  have hpos : 0 < len.toNat := toNat_pos_of_len_ne_zero hlen
  obtain ⟨m, hm⟩ : ∃ m, (if k = min len.toNat 8 then k else k + 1) = m + 1 :=
    Nat.exists_eq_succ_of_ne_zero (by split_ifs <;> omega)
  rw [readLocked_eq c sp len addr s hk hok (hst.imp id And.right), hm, State.finish_copies, copyMany_copies,
    List.range_succ_eq_map, List.map_cons]
  exact ⟨_, rfl⟩

/-- The first copy of a READ, of a length other than 0. -/
theorem State.afterRead_first_copy (s : State) (sp : Space) {len : Len} (hlen : len ≠ 0) (addr : Addr) :
    ∃ later, (s.afterRead sp len addr).copies =
      s.copies ++ .memWrite sp (addrBits s.addrW addr) (lfsrNext s.seed) (s.putAnswerAt 0) :: later :=
  readLocked_first_copy s.requester sp hlen addr (s.entered _)

/-- A READ under the lock whose copies all succeed advances the seed once for each of its bytes (R38, R39). -/
theorem readLocked_seed (c : CallerId) (sp : Space) (len : Len) (addr : Addr) {s : State}
    (hok : ∀ j < min len.toNat 8, s.putAnswerAt j = .ok) :
    (readLocked c sp len addr s).seed = lfsrNext^[min len.toNat 8] s.seed := by
  rw [readLocked_eq c sp len addr s (le_refl _) hok (.inl rfl), if_pos rfl, State.finish_seed, copyMany_seed]

/-- TAKE of a done caller leaves it Idle and gives it its status (R49). -/
theorem State.stepTake_of_done {s : State} {c : CallerId} {st : Status} (h : s.caller c = .done st) :
    s.stepTake c = .next ((s.setCaller c .idle).receive c st) := by
  simp only [State.stepTake, h]

/-- Once its caller has taken the status of a READ, the same caller's next request is admitted and finds the lock free. -/
theorem State.afterRead_take {s : State} (hready : s.Ready) (hr : Rising s.callers) (sp : Space) (len : Len) (addr : Addr) :
    ∃ u, (s.afterRead sp len addr).stepTake s.requester = .next u ∧ u.Ready ∧ u.lock = .free ∧ u.addrW = s.addrW ∧
      u.seed = (s.afterRead sp len addr).seed ∧ u.copies = (s.afterRead sp len addr).copies := by
  obtain ⟨hinit, hlt, -⟩ := hready
  obtain ⟨k, st, ht⟩ : ∃ k st, s.afterRead sp len addr = (copyMany sp addr k 0 (s.entered _)).finish s.requester st :=
    readLocked_shape s.requester sp len addr _
  have hdone : (s.afterRead sp len addr).caller s.requester = .done st := by rw [ht, State.finish_caller_same]
  have hrising : Rising (s.afterRead sp len addr).callers := by
    rw [ht, State.finish_callers, copyMany_callers]
    exact rising_callersSet (s.entered_callers_rising hr _) _ _
  have hreq : (s.afterRead sp len addr).requester = s.requester := by simp [ht]
  refine ⟨_, State.stepTake_of_done hdone, ⟨?_, ?_, ?_⟩, ?_, ?_, rfl, rfl⟩
  · simpa [ht] using hinit
  · simpa [ht] using hlt
  · simpa [hreq] using State.caller_set_idle hrising rfl
  · simp [ht]
  · simp [ht]

/-- No seed but 0 advances to 0 (R35). -/
theorem lfsrNext_ne_zero : ∀ x : Byte, x ≠ 0 → lfsrNext x ≠ 0 := by decide

/-- A seed other than 0 does not return within 8 advances, as long as a READ (R35). -/
theorem lfsrNext_iterate_ne : ∀ x : Byte, x ≠ 0 → ∀ n ∈ Finset.Icc 1 8, lfsrNext^[n] x ≠ x := by decide

/-- Settles O21: the first bytes are b = NEXT(seed) and NEXT^n(b) for the n bytes of the first READ, 1 to 8 of them. -/
theorem repeatedReadsDifferInTheirFirstByte : Obligations.RepeatedReadsDifferInTheirFirstByte := by
  intro s sp len addr hready hr hl hseed hlen hok
  have hpos : 0 < len.toNat := toNat_pos_of_len_ne_zero hlen
  obtain ⟨u, htake, huready, hul, huw, huseed, hucopies⟩ := State.afterRead_take hready hr sp len addr
  obtain ⟨later, hfirst⟩ := s.afterRead_first_copy sp hlen addr
  obtain ⟨later', hsecond⟩ := u.afterRead_first_copy sp hlen addr
  rw [hok 0 (by omega)] at hfirst
  rw [huw, hucopies] at hsecond
  refine ⟨_, u, _, _, _, _, later, later', exec_read_of_free hready hl sp len addr, htake,
    exec_read_of_free huready hul sp len addr, hfirst, hsecond, ?_⟩
  have hseed' : u.seed = lfsrNext^[min len.toNat 8] s.seed := huseed.trans (readLocked_seed s.requester sp len addr hok)
  rw [hseed', ← Function.iterate_succ_apply' lfsrNext, Function.iterate_succ_apply]
  exact (lfsrNext_iterate_ne _ (lfsrNext_ne_zero _ hseed) _ (Finset.mem_Icc.2 (by omega))).symm

end Sys2Proof.Machine
end

section
/-! PROOFS. Encoding: what the decoder makes of each value of the fields of cmd, encode as its inverse, and the step that
refuses a reserved request (spec/30_encoding.md R67 to R74). -/

namespace Sys2Proof

/-! ## The fields of cmd -/

@[simp] theorem spaceOfBit_bitOfSpace (sp : Space) : spaceOfBit (bitOfSpace sp) = sp := by
  cases sp <;> rfl

@[simp] theorem bitOfSpace_spaceOfBit (b : Bool) : bitOfSpace (spaceOfBit b) = b := by
  cases b <;> rfl

section
variable (op : BitVec 2) (sp : Space) (len : Len) (addr : Addr)

theorem RawRequest.op_cmdOf : RawRequest.op ⟨cmdOf op sp, len, addr⟩ = op :=
  BitVec.extractLsb'_append_eq_right

theorem RawRequest.s_cmdOf : RawRequest.s ⟨cmdOf op sp, len, addr⟩ = bitOfSpace sp := by
  have hbit : ∀ (op : BitVec 2) (b : Bool), ((0 : BitVec 5) ++ BitVec.ofBool b ++ op).getLsbD 2 = b := by decide
  exact hbit op (bitOfSpace sp)

theorem RawRequest.res_cmdOf : RawRequest.res ⟨cmdOf op sp, len, addr⟩ = 0 := by
  have hres : ∀ (op : BitVec 2) (b : Bool), ((0 : BitVec 5) ++ BitVec.ofBool b ++ op).extractLsb' 3 5 = 0 := by decide
  exact hres op (bitOfSpace sp)

end

/-- A cmd whose reserved field is clear is its space bit and its operation code put together (R68). -/
theorem RawRequest.cmdOf_fields {r : RawRequest} (hres : r.res = 0) : cmdOf r.op (spaceOfBit r.s) = r.cmd := by
  have hcat : ∀ cmd : Byte, cmd.extractLsb' 3 5 = 0 →
      (0 : BitVec 5) ++ BitVec.ofBool (cmd.getLsbD 2) ++ cmd.extractLsb' 0 2 = cmd := by decide
  rw [cmdOf, bitOfSpace_spaceOfBit]
  exact hcat r.cmd hres

/-- R69's mask 0xFB drops cmd[2] alone: a masked cmd is an operation code exactly where the reserved field is clear and the
operation field is that code. -/
theorem RawRequest.masked_eq_iff (r : RawRequest) (op : BitVec 2) :
    r.cmd &&& 0xFB = op.setWidth 8 ↔ r.res = 0 ∧ r.op = op := by
  have hmask : ∀ (cmd : Byte) (op : BitVec 2),
      cmd &&& 0xFB = op.setWidth 8 ↔ cmd.extractLsb' 3 5 = 0 ∧ cmd.extractLsb' 0 2 = op := by decide
  exact hmask r.cmd op

/-- The encodings that R70 reserves. -/
def RawRequest.Reserved (r : RawRequest) : Prop := r.op = 0b00 ∨ r.op = 0b11 ∨ r.res ≠ 0

/-- Every request is a READ, a WRITE or reserved (R68, R70). -/
theorem RawRequest.read_or_write_or_reserved (r : RawRequest) :
    (r.res = 0 ∧ r.op = 0b01) ∨ (r.res = 0 ∧ r.op = 0b10) ∨ r.Reserved := by
  have hop : ∀ op : BitVec 2, op = 0b00 ∨ op = 0b01 ∨ op = 0b10 ∨ op = 0b11 := by decide
  unfold RawRequest.Reserved
  by_cases hres : r.res = 0
  · rcases hop r.op with h | h | h | h <;> simp [h, hres]
  · exact .inr (.inr (.inr (.inr hres)))

/-! ## What the decoder makes of the fields -/

section
variable {r : RawRequest}

/-- No operation code that R68 defines stands in a reserved request. -/
theorem RawRequest.Reserved.masked_ne (h : r.Reserved) {op : BitVec 2} (hop : op ≠ 0b00 ∧ op ≠ 0b11) :
    r.cmd &&& 0xFB ≠ op.setWidth 8 := by
  rw [Ne, r.masked_eq_iff]
  rintro ⟨hres, rfl⟩
  exact h.elim hop.1 (·.elim hop.2 (· hres))

theorem decodeRequest_read (hres : r.res = 0) (hop : r.op = 0b01) :
    decodeRequest r = .ok ⟨.read, spaceOfBit r.s, r.len, r.addr⟩ :=
  if_pos ((r.masked_eq_iff 0b01).2 ⟨hres, hop⟩)

theorem decodeRequest_write (hres : r.res = 0) (hop : r.op = 0b10) :
    decodeRequest r = .ok ⟨.write, spaceOfBit r.s, r.len, r.addr⟩ := by
  have hcmd : r.cmd &&& 0xFB = 0x02 := (r.masked_eq_iff 0b10).2 ⟨hres, hop⟩
  have hne : r.cmd &&& 0xFB ≠ 0x01 := by rw [hcmd]; decide
  exact (if_neg hne).trans (if_pos hcmd)

theorem decodeRequest_reserved (h : r.Reserved) : decodeRequest r = .error (.reserved r.cmd) :=
  (if_neg (h.masked_ne (op := 0b01) (by decide))).trans (if_neg (h.masked_ne (op := 0b10) (by decide)))

theorem decode_read (hres : r.res = 0) (hop : r.op = 0b01) : decode r = .ok (.read (spaceOfBit r.s) r.len r.addr) := by
  rw [decode, decodeRequest_read hres hop]; rfl

theorem decode_write (hres : r.res = 0) (hop : r.op = 0b10) : decode r = .ok (.write (spaceOfBit r.s) r.len r.addr) := by
  rw [decode, decodeRequest_write hres hop]; rfl

theorem decode_reserved (h : r.Reserved) : decode r = .error (.reserved r.cmd) := by
  rw [decode, decodeRequest_reserved h]

end

/-! ## Encode and decode -/

/-- What is encoded decodes to itself, with every operand at every value. -/
theorem decode_of_encode {i : Instr} {r : RawRequest} (h : encode i = some r) : decode r = .ok i := by
  cases i with
  | read sp len addr =>
    cases h
    rw [decode_read (RawRequest.res_cmdOf ..) (RawRequest.op_cmdOf ..), RawRequest.s_cmdOf, spaceOfBit_bitOfSpace]
  | write sp len addr =>
    cases h
    rw [decode_write (RawRequest.res_cmdOf ..) (RawRequest.op_cmdOf ..), RawRequest.s_cmdOf, spaceOfBit_bitOfSpace]
  | init => cases h
  | next v => cases h

/-- What decodes is encoded as it stood: a request that decodes has a clear reserved field, so no bit of it is lost. -/
theorem encode_of_decode {i : Instr} {r : RawRequest} (h : decode r = .ok i) : encode i = some r := by
  rcases r.read_or_write_or_reserved with ⟨hres, hop⟩ | ⟨hres, hop⟩ | hr
  · obtain rfl := Except.ok.inj ((decode_read hres hop).symm.trans h)
    rw [encode, ← hop, RawRequest.cmdOf_fields hres]
  · obtain rfl := Except.ok.inj ((decode_write hres hop).symm.trans h)
    rw [encode, ← hop, RawRequest.cmdOf_fields hres]
  · cases (decode_reserved hr).symm.trans h

/-- Settles O5: each direction is a case split, over the operation and over the fields of the request. -/
theorem encodeAndDecodeAgree : Obligations.EncodeAndDecodeAgree :=
  ⟨fun _ _ => ⟨decode_of_encode, encode_of_decode⟩, fun _ _ _ => ⟨rfl, rfl⟩, rfl, fun _ => rfl⟩

/-! ## What the values of cmd select -/

/-- Settles O3: what the decoder makes of the fields, with the space read from cmd[2]. -/
theorem commandFieldsSelectTheOperation : Obligations.CommandFieldsSelectTheOperation :=
  fun _ => ⟨decode_read, decode_write, fun h => decode_reserved (or_rotate.1 h)⟩

/-- Settles O2: the first four are the encodings of READ and WRITE, the fields of the others are reserved. -/
theorem listedCommandsDecodeAsListed : Obligations.ListedCommandsDecodeAsListed := by
  have hreserved : ∀ cmd ∈ ([0x00, 0x03, 0x04, 0x07, 0x09, 0x0A, 0x81, 0x42, 0xFF, 0xFD] : List Byte),
      cmd.extractLsb' 0 2 = 0b00 ∨ cmd.extractLsb' 0 2 = 0b11 ∨ cmd.extractLsb' 3 5 ≠ 0 := by decide
  refine ⟨fun len addr => ?_, fun cmd hcmd len addr => decode_reserved (hreserved cmd hcmd)⟩
  exact ⟨decode_of_encode rfl, decode_of_encode rfl, decode_of_encode rfl, decode_of_encode rfl⟩

/-- Settles O6: what a request decodes to is a READ or a WRITE. -/
theorem noRequestSelectsInitOrNext : Obligations.NoRequestSelectsInitOrNext := by
  intro r i h
  rcases Machine.decode_cases h with rfl | rfl
  · exact ⟨nofun, nofun⟩
  · exact ⟨nofun, nofun⟩

end Sys2Proof

namespace Sys2Proof.Machine

/-! ## The refusal of a reserved request -/

theorem fetchRequest_reserved {r : RawRequest} (h : r.Reserved) (c : CallerId) (s : State) :
    fetchRequest c r s = .answer (.refused (.reservedEncoding r.cmd)) := by
  rw [fetchRequest, decode_reserved h]; rfl

theorem fetchIssue_reserved {r : RawRequest} (h : r.Reserved) (c : CallerId) (s : State) :
    fetchIssue c r s = .answer (.refused (.reservedEncoding r.cmd)) := by
  rw [fetchIssue, decodeRequest_reserved h]; rfl

/-- Settles O4: in both forms of a request the decoder's refusal answers for the step, before any state is looked at. -/
theorem reservedRequestsAreRefused : Obligations.ReservedRequestsAreRefused := by
  rintro s c r rest (hs | hs) hr
  · exact step_of_answer hs (fetchRequest_reserved hr c _)
  · exact step_of_answer hs (fetchIssue_reserved hr c _)

end Sys2Proof.Machine
end

section
/-! PROOFS. The LFSR core: the bits of NEXT and of its inverse (spec/40_lfsr_core.md R30, R31, R36), the cycle of the seeds
other than 0 (R35), and READs of the seed 0, which NEXT fixes (R33). -/

namespace Sys2Proof.Machine

/-! ## The bits of NEXT and of PREV -/

/-- The top bit of NEXT is the feedback of the taps (R31). -/
theorem lfsrNext_getLsbD_seven (s : Byte) :
    (lfsrNext s).getLsbD 7 = (s.getLsbD 0 ^^ s.getLsbD 2 ^^ s.getLsbD 3 ^^ s.getLsbD 4) :=
  BitVec.getLsbD_append.trans (by simp [lfsrFeedback])

/-- The other bits of NEXT are those above them, shifted down (R31). -/
theorem lfsrNext_getLsbD_of_lt (s : Byte) {j : Nat} (hj : j < 7) : (lfsrNext s).getLsbD j = s.getLsbD (j + 1) :=
  BitVec.getLsbD_append.trans (by simp [hj, Nat.add_comm 1 j])

/-- The lowest bit of PREV is the one NEXT shifted out, recovered from the feedback and the other taps (R36). -/
theorem lfsrPrev_getLsbD_zero (t : Byte) :
    (lfsrPrev t).getLsbD 0 = (t.getLsbD 7 ^^ t.getLsbD 1 ^^ t.getLsbD 2 ^^ t.getLsbD 3) :=
  BitVec.getLsbD_append.trans (by simp)

/-- The other bits of PREV are those below them, shifted up (R36). -/
theorem lfsrPrev_getLsbD_succ (t : Byte) {j : Nat} (hj : j < 7) : (lfsrPrev t).getLsbD (j + 1) = t.getLsbD j :=
  BitVec.getLsbD_append.trans (by simp [hj])

/-- Settles O7: NEXT answers the state with its result recorded, whose bits are those of R31. -/
theorem nextGivesTheShiftedStateAndNothingElse : Obligations.NextGivesTheShiftedStateAndNothingElse :=
  ⟨fun v _ => ⟨_, rfl, rfl, lfsrNext_getLsbD_seven v, fun _ => lfsrNext_getLsbD_of_lt v, rfl, rfl⟩, by decide⟩

/-! ## The recurrence of the output bits -/

/-- Bit j of the seed after k advances is bit k + j of the seed, while no feedback has reached it. -/
theorem lfsrNext_iterate_getLsbD (k : Nat) :
    ∀ (s : Byte) {j : Nat}, k + j < 8 → (lfsrNext^[k] s).getLsbD j = s.getLsbD (k + j) := by
  induction k with
  | zero => intro s j _; simp
  | succ k ih =>
    intro s j h
    rw [Function.iterate_succ_apply, ih (lfsrNext s) (by omega), lfsrNext_getLsbD_of_lt s (by omega), Nat.add_right_comm]

/-- The output bit 8 advances on is the feedback of the seed. -/
theorem lfsrNext_iterate_eight_getLsbD (s : Byte) :
    (lfsrNext^[8] s).getLsbD 0 = (s.getLsbD 0 ^^ s.getLsbD 2 ^^ s.getLsbD 3 ^^ s.getLsbD 4) := by
  rw [Function.iterate_succ_apply, lfsrNext_iterate_getLsbD 7 _ (by omega), lfsrNext_getLsbD_seven]

/-- Settles O8: the seed after k advances shows its bits one after another as the output bits from a_k on. -/
theorem outputBitsFollowTheRecurrence : Obligations.OutputBitsFollowTheRecurrence := by
  intro s
  refine ⟨lfsrNext_getLsbD_seven s, fun _ => lfsrNext_getLsbD_of_lt s, fun k => ?_⟩
  have hout : ∀ i < 8, (lfsrNext^[k + i] s).getLsbD 0 = (lfsrNext^[k] s).getLsbD i := fun i hi => by
    rw [Nat.add_comm, Function.iterate_add_apply, lfsrNext_iterate_getLsbD i _ hi, Nat.add_zero]
  rw [hout 2 (by omega), hout 3 (by omega), hout 4 (by omega), Nat.add_comm k 8, Function.iterate_add_apply,
    lfsrNext_iterate_eight_getLsbD]

/-! ## PREV inverts NEXT -/

/-- Three taps added to the feedback that holds them leave the fourth. -/
theorem feedback_cancel : ∀ a b c d : Bool, (a ^^ b ^^ c ^^ d ^^ b ^^ c ^^ d) = a := by decide

/-- PREV undoes NEXT: the taps cancel in the bit that NEXT shifted out. -/
theorem lfsrPrev_lfsrNext : Function.LeftInverse lfsrPrev lfsrNext := by
  intro s
  refine BitVec.eq_of_getLsbD_eq fun j hj => ?_
  cases j with
  | zero =>
    rw [lfsrPrev_getLsbD_zero, lfsrNext_getLsbD_seven, lfsrNext_getLsbD_of_lt s (by omega),
      lfsrNext_getLsbD_of_lt s (by omega), lfsrNext_getLsbD_of_lt s (by omega)]
    exact feedback_cancel _ _ _ _
  | succ j => rw [lfsrPrev_getLsbD_succ _ (by omega), lfsrNext_getLsbD_of_lt s (by omega)]

/-- NEXT undoes PREV: the taps cancel in the feedback bit. -/
theorem lfsrNext_lfsrPrev : Function.RightInverse lfsrPrev lfsrNext := by
  intro t
  refine BitVec.eq_of_getLsbD_eq fun j hj => ?_
  by_cases h : j < 7
  · rw [lfsrNext_getLsbD_of_lt _ h, lfsrPrev_getLsbD_succ t h]
  · obtain rfl : j = 7 := by omega
    rw [lfsrNext_getLsbD_seven, lfsrPrev_getLsbD_zero, lfsrPrev_getLsbD_succ t (j := 1) (by omega),
      lfsrPrev_getLsbD_succ t (j := 2) (by omega), lfsrPrev_getLsbD_succ t (j := 3) (by omega)]
    exact feedback_cancel _ _ _ _

/-- Settles O10: PREV inverts NEXT bit by bit. -/
theorem prevInvertsNext : Obligations.PrevInvertsNext :=
  ⟨lfsrPrev_lfsrNext, lfsrNext_lfsrPrev, fun t => ⟨fun _ => lfsrPrev_getLsbD_succ t, lfsrPrev_getLsbD_zero t⟩, by decide⟩

/-! ## The cycle of the seeds other than 0 -/

/-- 0 is a fixed point of NEXT (R33). -/
theorem lfsrNext_zero : Function.IsFixedPt lfsrNext 0 := by decide

/-- No seed but 0 advances to 0, in any number of advances. -/
theorem lfsrNext_iterate_ne_zero {s : Byte} (hs : s ≠ 0) (k : Nat) : lfsrNext^[k] s ≠ 0 := by
  induction k with
  | zero => exact hs
  | succ k ih => rw [Function.iterate_succ_apply']; exact lfsrNext_ne_zero _ ih

/-- NEXT as shift and insertion, the form of R30's comment: it evaluates a seed that is given as a number. -/
theorem lfsrNext_eq_shiftRight : ∀ s : Byte, lfsrNext s = s >>> 1 ||| if lfsrFeedback s then 0x80 else 0 := by decide

/-- One advance, then the rest. Not by rfl, so that the kernel checks a long run advance by advance. -/
theorem lfsrNext_iterate_succ (k : Nat) (s : Byte) : lfsrNext^[k + 1] s = lfsrNext^[k] (lfsrNext s) := by
  rw [Function.iterate_succ_apply]

/-- The reset seed after 15, 51 and 85 advances, and on from there by 85 twice more, back to itself. -/
theorem lfsrNext_iterate_resetSeed :
    lfsrNext^[15] 0x2A = 0xE6 ∧ lfsrNext^[51] 0x2A = 0x70 ∧ lfsrNext^[85] 0x2A = 0x1F ∧
      lfsrNext^[85] 0x1F = 0x35 ∧ lfsrNext^[85] 0x35 = 0x2A := by
  simp [-Function.iterate_succ, lfsrNext_iterate_succ, lfsrNext_eq_shiftRight, lfsrFeedback]

/-- The reset seed has the period 255 = 3 * 5 * 17: it returns after 255 advances, and after none of 15, 51 and 85. -/
theorem minimalPeriod_resetSeed : Function.minimalPeriod lfsrNext 0x2A = 255 := by
  obtain ⟨h15, h51, h85, h170, h255⟩ := lfsrNext_iterate_resetSeed
  have hreturn : Function.IsPeriodicPt lfsrNext 255 0x2A := by
    change lfsrNext^[85 + (85 + 85)] 0x2A = 0x2A
    rw [Function.iterate_add_apply, Function.iterate_add_apply, h85, h170, h255]
  have hnone : ∀ k ∈ [15, 51, 85], ¬ Function.IsPeriodicPt lfsrNext k 0x2A := by
    simp only [Function.IsPeriodicPt, Function.IsFixedPt, List.forall_mem_cons, h15, h51, h85]
    decide
  have hdivisor : ∀ d ∈ Nat.divisors 255, d ≠ 255 → ∃ k ∈ [15, 51, 85], d ∣ k := by decide
  by_contra hd
  obtain ⟨k, hk, hdk⟩ := hdivisor _ (Nat.mem_divisors.2 ⟨hreturn.minimalPeriod_dvd, by decide⟩) hd
  exact hnone k hk (Function.isPeriodicPt_iff_minimalPeriod_dvd.2 hdk)

/-- A seed of period 255 reaches every seed other than 0: its 255 values are distinct, and there are no more. -/
theorem exists_lfsrNext_iterate_eq {s t : Byte} (hs : s ≠ 0) (hperiod : Function.minimalPeriod lfsrNext s = 255)
    (ht : t ≠ 0) : ∃ k, lfsrNext^[k] s = t := by
  have hmaps : Set.MapsTo (lfsrNext^[·] s) (Finset.range 255) (Finset.univ.erase (0 : Byte)) :=
    fun k _ => by simpa using lfsrNext_iterate_ne_zero hs k
  have hinj : Set.InjOn (lfsrNext^[·] s) (Finset.range 255) := by
    have h := Function.iterate_injOn_Iio_minimalPeriod (f := lfsrNext) (x := s)
    rwa [hperiod, ← Finset.coe_range] at h
  have hcard : (Finset.univ.erase (0 : Byte)).card ≤ (Finset.range 255).card := by
    simp [← FinEnum.card_eq_fintypeCard]
  obtain ⟨k, -, hk⟩ := Finset.surjOn_of_injOn_of_card_le _ hmaps hinj hcard (by simpa using ht : t ∈ _)
  exact ⟨k, hk⟩

/-- Every seed other than 0 has the period 255, as it lies on the cycle of the reset seed. -/
theorem minimalPeriod_of_ne_zero {s : Byte} (hs : s ≠ 0) : Function.minimalPeriod lfsrNext s = 255 := by
  obtain ⟨k, rfl⟩ := exists_lfsrNext_iterate_eq (by decide) minimalPeriod_resetSeed hs
  have hmem : (0x2A : Byte) ∈ Function.periodicPts lfsrNext := by
    rw [← Function.minimalPeriod_pos_iff_mem_periodicPts, minimalPeriod_resetSeed]
    decide
  rw [Function.minimalPeriod_apply_iterate hmem, minimalPeriod_resetSeed]

/-- NEXT fixes no seed but 0, as the others have a period other than 1. -/
theorem lfsrNext_eq_self_iff (s : Byte) : lfsrNext s = s ↔ s = 0 := by
  refine ⟨fun hfix => ?_, fun h => h ▸ lfsrNext_zero⟩
  by_contra hs
  have hone : Function.minimalPeriod lfsrNext s = 1 := Function.minimalPeriod_eq_one_iff_isFixedPt.2 hfix
  rw [minimalPeriod_of_ne_zero hs] at hone
  omega

/-- Settles O9: the cycle of the reset seed holds every seed other than 0, so each has its period and reaches the others. -/
theorem nextIsOneCycleOf255 : Obligations.NextIsOneCycleOf255 := by
  refine ⟨⟨lfsrPrev_lfsrNext.injective, lfsrNext_lfsrPrev.surjective⟩, lfsrNext_eq_self_iff,
    fun s t hs ht => exists_lfsrNext_iterate_eq hs (minimalPeriod_of_ne_zero hs) ht, fun s hs => ⟨?_, fun k hpos hlt => ?_⟩,
    by decide⟩
  · have hreturn := Function.iterate_minimalPeriod (f := lfsrNext) (x := s)
    rwa [minimalPeriod_of_ne_zero hs] at hreturn
  · exact Function.not_isPeriodicPt_of_pos_of_lt_minimalPeriod hpos.ne' (by rwa [minimalPeriod_of_ne_zero hs])

/-! ## READs of the seed 0 -/

/-- Settles O19: whatever the answers, the copies are of advances of the seed, and no advance leaves 0. -/
theorem readOfAZeroSeedCopiesZeros : Obligations.ReadOfAZeroSeedCopiesZeros := by
  intro s sp len addr hready hl hseed
  have hzero : ∀ k, lfsrNext^[k] s.seed = 0 := fun k => by rw [hseed]; exact Function.iterate_fixed lfsrNext_zero k
  obtain ⟨k, st, hread⟩ : ∃ k st, s.afterRead sp len addr = (copyMany sp addr k 0 (s.entered _)).finish s.requester st :=
    readLocked_shape s.requester sp len addr _
  refine ⟨_, _, exec_read_of_free hready hl sp len addr, (congrArg State.copies hread).trans (copyMany_copies ..), ?_, ?_⟩
  · rw [hread, State.finish_seed, copyMany_seed]
    exact hzero k
  · simp only [List.mem_map]
    rintro r ⟨j, -, rfl⟩
    exact ⟨_, _, congrArg (CopyRecord.memWrite sp _ · _) (hzero (j + 1))⟩

end Sys2Proof.Machine
end

section
/-! PROOFS. The atomic steps of R49, one at a time (spec/41_device_adapter.md R49): what each does where it is enabled, and
that it changes nothing where it is not. -/

namespace Sys2Proof.Machine

/-! ## A step that is enabled -/

section
variable {s : State} {c : CallerId}

/-- ISSUE of an Idle caller, after INIT, only sets cs[c]. -/
theorem State.issue_enabled (hi : s.initialised = true) (hlt : c < s.nCallers) (hidle : s.caller c = .idle) (q : Request) :
    s.issue c q = .next (s.setCaller c (issuedState s.einval q)) :=
  State.issue_eq_next.2 ⟨⟨hi, hlt, hidle⟩, rfl⟩

/-- ACQUIRE of a waiting caller takes the free lock. -/
theorem State.stepAcquire_enabled {q : Request} (hi : s.initialised = true) (hc : s.caller c = .waiting q)
    (hl : s.lock = .free) : s.stepAcquire c = .next (s.acquire c q) := by
  simp [State.stepAcquire, hc, hi, hl]

variable {x : Txn}

/-- READ_BYTE of a READ with bytes left makes its next copy. -/
theorem State.stepReadByte_enabled (hi : s.initialised = true) (hx : s.txn = some x) (hown : x.owner = c)
    (hop : x.op = .read) (hlt : x.i < x.n) : s.stepReadByte c = .next (s.readByteOf x) := by
  simp [State.stepReadByte, hx, hown, hop, hlt, hi]

/-- READ_END of a READ with no byte left finishes it. -/
theorem State.stepReadEnd_enabled (hx : s.txn = some x) (hown : x.owner = c) (hop : x.op = .read) (hin : x.i = x.n) :
    s.stepReadEnd c = .next (s.finish c (statusOfCount x.n)) := by
  simp [State.stepReadEnd, hx, hown, hop, hin]

/-- WRITE_COPY of a WRITE makes its MemRead and finishes it. -/
theorem State.stepWriteCopy_enabled (hi : s.initialised = true) (hx : s.txn = some x) (hown : x.owner = c)
    (hop : x.op = .write) : s.stepWriteCopy c = .next ((s.memRead x.space x.addr).finishWrite c s.getAnswer) := by
  simp [State.stepWriteCopy, hx, hown, hop, hi]

end

/-! ## A step that is not enabled -/

section
variable {s : State} {c : CallerId}

theorem State.stepAcquire_not_waiting (h : ∀ q, s.caller c ≠ .waiting q) : s.stepAcquire c = .next s := by
  unfold State.stepAcquire
  split
  next q hq => exact absurd hq (h q)
  next => rfl

/-- R19: with the lock held a waiting caller has no step. -/
theorem State.stepAcquire_of_held {q : Request} {d : CallerId} (hi : s.initialised = true) (hc : s.caller c = .waiting q)
    (hl : s.lock = .held d) : s.stepAcquire c = .next s := by
  simp [State.stepAcquire, hc, hi, hl]

theorem State.stepReadByte_not_enabled (h : ∀ x, s.txn = some x → x.owner ≠ c ∨ x.op ≠ .read ∨ x.n ≤ x.i) :
    s.stepReadByte c = .next s := by
  unfold State.stepReadByte
  split
  next x hx =>
    refine if_neg fun ⟨hown, hop, hlt⟩ => ?_
    rcases h x hx with hown' | hop' | hle
    exacts [hown' hown, hop' hop, BitVec.not_lt.2 hle hlt]
  next => rfl

theorem State.stepReadEnd_not_enabled (h : ∀ x, s.txn = some x → x.owner ≠ c ∨ x.op ≠ .read ∨ x.i ≠ x.n) :
    s.stepReadEnd c = .next s := by
  unfold State.stepReadEnd
  split
  next x hx =>
    refine if_neg fun ⟨hown, hop, hin⟩ => ?_
    rcases h x hx with hown' | hop' | hin'
    exacts [hown' hown, hop' hop, hin' hin]
  next => rfl

theorem State.stepWriteCopy_not_enabled (h : ∀ x, s.txn = some x → x.owner ≠ c ∨ x.op ≠ .write) :
    s.stepWriteCopy c = .next s := by
  unfold State.stepWriteCopy
  split
  next x hx => exact if_neg fun ⟨hown, hop⟩ => (h x hx).elim (· hown) (· hop)
  next => rfl

theorem State.stepTake_not_done (h : ∀ st, s.caller c ≠ .done st) : s.stepTake c = .next s := by
  unfold State.stepTake
  split
  next st hst => exact absurd hst (h st)
  next => rfl

end

/-- Settles O49: each move answers its step of R49, and each of these leaves the state as it is where it is not enabled. -/
theorem stepsThatAreNotEnabledChangeNothing : Obligations.StepsThatAreNotEnabledChangeNothing := by
  intro s c rest
  refine ⟨fun hs h => ?_, fun hs h => ?_, fun hs h => ?_, fun hs h => ?_, fun hs h => ?_⟩ <;> rw [step_of_answer hs rfl]
  · exact State.stepAcquire_not_waiting h
  · exact State.stepReadByte_not_enabled h
  · exact State.stepReadEnd_not_enabled h
  · exact State.stepWriteCopy_not_enabled h
  · exact State.stepTake_not_done h

/-! ## The step that runs a request -/

/-- Settles O1: a whole request that decodes, and the reset input, are run by exec. -/
theorem stepRunsTheDecodedRequest : Obligations.StepRunsTheDecodedRequest := by
  refine ⟨fun s c r i rest hs hd => ?_, fun s rest hs => ?_⟩
  · simp only [step, fetch, hs, fetchMove, fetchRequest, hd]
  · simp only [step, fetch, hs, fetchMove]

/-! ## ISSUE, ACQUIRE and TAKE -/

/-- ISSUE of a decoded request, of an Idle caller after INIT. -/
theorem fetchMove_issue {s : State} {c : CallerId} {r : RawRequest} {q : Request} (hd : decodeRequest r = .ok q)
    (hi : s.initialised = true) (hlt : c < s.nCallers) (hidle : s.caller c = .idle) :
    fetchMove (.issue c r) s = .answer (.next (s.setCaller c (issuedState s.einval (s.onPort q)))) := by
  simp only [fetchMove, fetchIssue, hd, State.issue_enabled hi hlt hidle]

/-- ISSUE leaves a request waiting, unless it is a WRITE of a length other than 1 (R44). -/
theorem issuedState_of_len_ok (e : Status) {q : Request} (h : q.op = .read ∨ q.len = 1) : issuedState e q = .waiting q := by
  refine if_neg fun ⟨hop, hlen⟩ => ?_
  rcases h with h | h
  · simp [hop] at h
  · simp [h, writeLenOk] at hlen

/-- A WRITE of a length other than 1 is done as it is issued (R44). -/
theorem issuedState_of_bad_len (e : Status) {q : Request} (hop : q.op = .write) (hlen : q.len ≠ 1) :
    issuedState e q = .done (statusOfBadLength e) :=
  if_pos ⟨hop, beq_eq_false_iff_ne.2 hlen⟩

/-- Settles O33: ISSUE sets cs[c] to what the request on the port is issued as. -/
theorem issueStep : Obligations.IssueStep := by
  intro s c r q rest hs hd hi hlt hidle
  have hc : ((s.setSchedule rest).setCaller c (issuedState s.einval (s.onPort q))).caller c =
      issuedState s.einval (s.onPort q) := State.caller_set_same (by simp) rfl
  refine ⟨_, step_of_answer hs (fetchMove_issue hd hi hlt hidle), fun hop hlen => ?_, fun h => ?_, fun d hd => ?_, rfl⟩
  · exact hc.trans (issuedState_of_bad_len _ hop hlen)
  · exact hc.trans (issuedState_of_len_ok _ h)
  · exact State.setCaller_caller_other _ hd _

/-- The count of the record that ACQUIRE makes, as a number (R21, R38). -/
theorem txnOf_n_toNat (c : CallerId) (q : Request) :
    (txnOf c q).n.toNat = if q.op = .read then min q.len.toNat 8 else 1 := by
  unfold txnOf
  split_ifs
  · exact clampedCount_toNat q.len
  · rfl

/-- Settles O34: with the lock free ACQUIRE has its whole effect, with the lock held none. -/
theorem acquireStep : Obligations.AcquireStep := by
  intro s c q rest hs hi hc
  refine ⟨fun hl => ?_, fun d hl => ?_⟩ <;> rw [step_of_answer hs rfl]
  · exact ⟨_, txnOf c q, State.stepAcquire_enabled hi hc hl, rfl, rfl, rfl, rfl, rfl, rfl, rfl, txnOf_n_toNat c q,
      State.acquire_caller_same .., fun _ hd => State.acquire_caller_other _ hd q, rfl⟩
  · exact State.stepAcquire_of_held hi hc hl

/-- Settles O38: TAKE drops the caller from a table whose keys rise, which leaves it Idle. -/
theorem takeStep : Obligations.TakeStep := by
  intro s c st rest hs hr hc
  refine ⟨_, (step_of_answer hs rfl).trans (State.stepTake_of_done (st := st) hc), ?_, rfl, fun d hd => ?_, rfl⟩
  · exact State.caller_set_idle hr rfl
  · exact State.setCaller_caller_other _ hd .idle

/-! ## The steps under the lock -/

/-- A copy that fails stores nothing (R52). -/
theorem State.copyOut_buffers_of_fail {s : State} {st : Status} (h : s.putAnswer = .fail st) (sp : Space) (a : Addr) :
    (s.copyOut sp a).kernel = s.kernel ∧ (s.copyOut sp a).user = s.user := by
  simp [h, Memory.afterPut]

/-- Settles O35: READ_BYTE is one copy of the advanced seed, and then the index goes up or the operation finishes. -/
theorem readByteStep : Obligations.ReadByteStep := by
  intro s c x rest hs hi hx hown hop hlt
  have hstep : step s = .next ((s.setSchedule rest).readByteOf x) :=
    (step_of_answer hs rfl).trans (State.stepReadByte_enabled (s := s.setSchedule rest) hi hx hown hop hlt)
  obtain ⟨hans, ht⟩ | ⟨st, hans, ht⟩ := (s.setSchedule rest).readByteOf_cases x <;> rw [ht] at hstep <;>
    rw [State.setSchedule_putAnswer] at hans
  · refine ⟨_, hstep, rfl, rfl, s.puts.drop_one.symm, rfl, fun _ => ⟨rfl, rfl, rfl, ?_⟩, ?_, fun sp a h => ?_, rfl⟩
    · rw [State.setTxn_bufByte]
      exact State.copyOut_bufByte_same hans _ _
    · simp [hans]
    · rw [State.setTxn_bufByte, State.setSchedule_addrW, State.copyOut_bufByte_other _ h, State.setSchedule_bufByte]
  · refine ⟨_, hstep, rfl, rfl, s.puts.drop_one.symm, rfl, ?_, fun _ _ => ⟨rfl, rfl, ?_, fun d hd => ?_, ?_⟩,
      fun sp a h => ?_, rfl⟩
    · simp [hans]
    · exact hown ▸ State.finish_caller_same _ _ _
    · exact State.finish_caller_other _ (hown ▸ hd) _
    · exact State.copyOut_buffers_of_fail (s := s.setSchedule rest) hans _ _
    · rw [State.finish_bufByte, State.setSchedule_addrW, State.copyOut_bufByte_other _ h, State.setSchedule_bufByte]

/-- Settles O36: READ_END is FINISH with the count of the record. -/
theorem readEndStep : Obligations.ReadEndStep := by
  intro s c x rest hs hx hown hop hin
  have hstep := (step_of_answer hs rfl).trans (State.stepReadEnd_enabled (s := s.setSchedule rest) hx hown hop hin)
  exact ⟨_, hstep, rfl, rfl, State.finish_caller_same _ _ _, fun d hd => State.finish_caller_other _ hd _, rfl⟩

/-! The end of a WRITE, for either answer of its MemRead (R43). -/

section
variable (s : State) (c : CallerId)

theorem State.finishWrite_lock (ans : GetAnswer) : (s.finishWrite c ans).lock = .free := by cases ans <;> rfl
theorem State.finishWrite_txn (ans : GetAnswer) : (s.finishWrite c ans).txn = none := by cases ans <;> rfl

theorem State.finishWrite_frame (ans : GetAnswer) :
    { s.finishWrite c ans with seed := s.seed, lock := s.lock, txn := s.txn, callers := s.callers } = s := by
  cases ans <;> rfl

theorem State.finishWrite_caller_other (ans : GetAnswer) {d : CallerId} (hd : d ≠ c) :
    (s.finishWrite c ans).caller d = s.caller d := by
  obtain ⟨v, st, h⟩ := s.finishWrite_shape c ans
  rw [h, State.finish_caller_other _ hd, State.setSeed_caller]

/-- R45, R46: the byte is the seed, and the status is +1. -/
theorem State.finishWrite_ok (b : Byte) :
    (s.finishWrite c (.ok b)).seed = b ∧ (s.finishWrite c (.ok b)).caller c = .done 1 :=
  ⟨rfl, State.finish_caller_same ..⟩

/-- R47, R80: the seed stays, and the status is the failure's. -/
theorem State.finishWrite_fail (st : Status) :
    (s.finishWrite c (.fail st)).seed = s.seed ∧ (s.finishWrite c (.fail st)).caller c = .done st :=
  ⟨rfl, State.finish_caller_same ..⟩

end

/-- Settles O37: WRITE_COPY is one MemRead and then the end of a WRITE, for either answer. -/
theorem writeCopyStep : Obligations.WriteCopyStep := by
  intro s c x rest hs hi hx hown hop
  have hstep := (step_of_answer hs rfl).trans (State.stepWriteCopy_enabled (s := s.setSchedule rest) hi hx hown hop)
  have hframe := ((s.setSchedule rest).memRead x.space x.addr).finishWrite_frame c s.getAnswer
  refine ⟨_, hstep, State.finishWrite_lock .., State.finishWrite_txn .., congrArg State.copies hframe,
    (congrArg State.gets hframe).trans s.gets.drop_one.symm, congrArg State.draws hframe, fun b hb => ?_, fun st hst => ?_,
    fun d hd => State.finishWrite_caller_other _ c _ hd, ?_⟩
  · rw [State.setSchedule_getAnswer, hb]
    exact State.finishWrite_ok _ c b
  · rw [State.setSchedule_getAnswer, hst]
    exact State.finishWrite_fail _ c st
  · exact congrArg ({ · with copies := s.copies, gets := s.gets, draws := s.draws }) hframe

end Sys2Proof.Machine
end

section
/-! PROOFS. Interleavings of callers (spec/10_state.md R16, spec/41_device_adapter.md R48, R49): runs of moves, and that the
moves of other callers leave alone what the holder of the lock works on. -/

namespace Sys2Proof.Machine

/-! ## Runs, move by move -/

/-- A move that answers a next state is the first step of a run. -/
theorem run_answer {m : Move} {s t : State} {rest : List Move} (h : fetchMove m (s.setSchedule rest) = .answer (.next t))
    (k : Nat) : Host.Core.run Sys2Proof.core (k + 1) (s.setSchedule (m :: rest)) = Host.Core.run Sys2Proof.core k t := by
  have hstep : Sys2Proof.core.step (s.setSchedule (m :: rest)) = .next t := step_of_answer (by simp) h
  simp only [Host.Core.run, hstep]

/-- Running the moves that are to come anyway. -/
theorem runMoves_of_schedule {ms : List Move} {s : State} (h : s.schedule = ms) :
    runMoves ms s = Host.Core.run Sys2Proof.core ms.length s := by
  subst h
  rfl

/-- No move changes the moves still to come, or the parameter ADDR_W; none undoes INIT (R9, R94). -/
theorem MoveEffect.kept {s t : State} {m : Move} (e : MoveEffect s m t) :
    t.schedule = s.schedule ∧ t.addrW = s.addrW ∧ (s.initialised = true → t.initialised = true) := by
  cases e <;> simp

/-- The first move of a run, and the rest of it. -/
theorem exists_of_runMoves_cons {m : Move} {ms : List Move} {s t : State} (h : runMoves (m :: ms) s = .next t) :
    ∃ s', step (s.setSchedule (m :: ms)) = .next s' ∧ MoveEffect (s.setSchedule ms) m s' ∧ runMoves ms s' = .next t := by
  simp only [runMoves, List.length_cons, Host.Core.run] at h
  split at h
  next s' hstep =>
    obtain ⟨hnil, -⟩ | ⟨m', ms', hs, e⟩ := step_effect hstep
    · cases hnil
    · cases hs
      obtain ⟨hsched, -, -⟩ := e.kept
      exact ⟨s', hstep, e, (runMoves_of_schedule hsched).trans h⟩
  all_goals cases h

/-- A move that answers a next state has its effect on the state. -/
theorem moveEffect_of_fetchMove {m : Move} {s t : State} (h : fetchMove m s = .answer (.next t)) : MoveEffect s m t := by
  obtain ⟨hnil, -⟩ | ⟨m', rest, hs, e⟩ := step_effect (step_of_answer (s := s.setSchedule (m :: s.schedule)) rfl h)
  · cases hnil
  · cases hs
    exact e

/-- A run whose first move answers a next state goes on from it. -/
theorem runMoves_cons {m : Move} {ms : List Move} {s s' : State}
    (h : fetchMove m (s.setSchedule ms) = .answer (.next s')) : runMoves (m :: ms) s = runMoves ms s' := by
  obtain ⟨hsched, -, -⟩ := (moveEffect_of_fetchMove h).kept
  exact (run_answer h ms.length).trans (runMoves_of_schedule hsched).symm

/-! ## Who holds the lock -/

/-- Only its own ACQUIRE gives a caller the lock: a whole request has freed it again (R49). -/
theorem MoveEffect.lock_held_before {s t : State} {m : Move} {c : CallerId} (e : MoveEffect s m t) (hm : m ≠ .acquire c)
    (hl : t.lock = .held c) : s.lock = .held c := by
  cases e with
  | @acquired d =>
    cases hl
    exact absurd rfl hm
  | skipped | issued | requestIssued | byteCopied | taken => exact hl
  | initialised | readRun | writeRun | byteFailed | readEnded | byteTaken => cases hl

/-- A caller that holds the lock after a run without an ACQUIRE of its own has held it from the start. -/
theorem lock_held_before_runMoves {c : CallerId} {t : State} {ms : List Move} :
    ∀ {s : State}, (∀ m ∈ ms, m ≠ .acquire c) → runMoves ms s = .next t → t.lock = .held c → s.lock = .held c := by
  induction ms with
  | nil =>
    rintro s - ⟨⟩ hl
    exact hl
  | cons m ms ih =>
    intro s hms hrun hl
    obtain ⟨s', -, e, hrun'⟩ := exists_of_runMoves_cons hrun
    obtain ⟨hm, hms⟩ := List.forall_mem_cons.1 hms
    exact e.lock_held_before hm (ih hms hrun' hl)

/-! ## The moves of other callers -/

/-- While c holds the lock, a move that is not c's leaves what the lock protects as it is (R18, R48). -/
theorem MoveEffect.critical_of_other {s t : State} {m : Move} {c : CallerId} (e : MoveEffect s m t) (h : s.Inv)
    (hi : s.initialised = true) (hl : s.lock = .held c) (hm : moveCaller m ≠ some c) : t.critical = s.critical := by
  have howner : ∀ x, s.txn = some x → x.owner = c := fun x hx => by
    obtain ⟨-, hheld⟩ := h.lock_of_txn hx
    cases hheld.symm.trans hl
    rfl
  cases e with
  | skipped | issued | requestIssued | taken => rfl
  | initialised hi' => simp [hi] at hi'
  | readRun _ _ _ hfree | writeRun _ _ _ hfree | acquired _ _ hfree => simp [hl] at hfree
  | byteCopied hx | byteFailed hx | readEnded hx | byteTaken hx => exact absurd (congrArg some (howner _ hx)) hm

/-! ## The moves of the holder -/

/-- Two states, after INIT, that agree in all that a step under the lock reads. -/
structure SameProtected (s u : State) : Prop where
  critical : s.critical = u.critical
  addrW : s.addrW = u.addrW
  initialised_left : s.initialised = true
  initialised_right : u.initialised = true

namespace SameProtected

variable {s u : State}

theorem txn (h : SameProtected s u) : s.txn = u.txn := congrArg Critical.txn h.critical

theorem putAnswer (h : SameProtected s u) : s.putAnswer = u.putAnswer :=
  State.putAnswerAt_congr (congrArg Critical.puts h.critical) (congrArg Critical.draws h.critical) 0

theorem getAnswer (h : SameProtected s u) : s.getAnswer = u.getAnswer := by
  have hgets : s.gets = u.gets := congrArg Critical.gets h.critical
  have hdraws : s.draws = u.draws := congrArg Critical.draws h.critical
  simp only [State.getAnswer, hgets, hdraws]

theorem setSchedule (h : SameProtected s u) (ms ms' : List Move) : SameProtected (s.setSchedule ms) (u.setSchedule ms') :=
  ⟨h.critical, h.addrW, h.initialised_left, h.initialised_right⟩

theorem setSeed (h : SameProtected s u) (v : Byte) : SameProtected (s.setSeed v) (u.setSeed v) :=
  ⟨congrArg ({ · with seed := v }) h.critical, h.addrW, h.initialised_left, h.initialised_right⟩

theorem setTxn (h : SameProtected s u) (x : Option Txn) : SameProtected (s.setTxn x) (u.setTxn x) :=
  ⟨congrArg ({ · with txn := x }) h.critical, h.addrW, h.initialised_left, h.initialised_right⟩

theorem finish (h : SameProtected s u) (c : CallerId) (st : Status) : SameProtected (s.finish c st) (u.finish c st) :=
  ⟨congrArg ({ · with lock := .free, txn := none }) h.critical, h.addrW, h.initialised_left, h.initialised_right⟩

theorem copyOut (h : SameProtected s u) (sp : Space) (a : Addr) : SameProtected (s.copyOut sp a) (u.copyOut sp a) := by
  refine ⟨?_, h.addrW, h.initialised_left, h.initialised_right⟩
  have hc := h.critical
  simp only [State.critical, Critical.mk.injEq] at hc ⊢
  simp [hc, h.putAnswer]

theorem memRead (h : SameProtected s u) (sp : Space) (a : Addr) : SameProtected (s.memRead sp a) (u.memRead sp a) := by
  refine ⟨?_, h.addrW, h.initialised_left, h.initialised_right⟩
  have hc := h.critical
  simp only [State.critical, Critical.mk.injEq] at hc ⊢
  simp [hc, h.getAnswer]

theorem readByteOf (h : SameProtected s u) (x : Txn) : SameProtected (s.readByteOf x) (u.readByteOf x) := by
  unfold State.readByteOf
  rw [h.putAnswer, h.addrW]
  split
  · exact (h.copyOut _ _).setTxn _
  · exact (h.copyOut _ _).finish _ _

theorem finishWrite (h : SameProtected s u) (c : CallerId) (ans : GetAnswer) :
    SameProtected (s.finishWrite c ans) (u.finishWrite c ans) := by
  cases ans with
  | ok b => exact (h.setSeed b).finish c _
  | fail st => exact h.finish c _

/-- READ_BYTE in both states: enabled in both or in neither. -/
theorem stepReadByte (h : SameProtected s u) (c : CallerId) :
    ∃ s' u', s.stepReadByte c = .next s' ∧ u.stepReadByte c = .next u' ∧ SameProtected s' u' := by
  by_cases hdis : ∀ x, s.txn = some x → x.owner ≠ c ∨ x.op ≠ .read ∨ x.n ≤ x.i
  · exact ⟨s, u, State.stepReadByte_not_enabled hdis, State.stepReadByte_not_enabled (h.txn ▸ hdis), h⟩
  · push Not at hdis
    obtain ⟨x, hx, hown, hop, hlt⟩ := hdis
    have hlt : x.i < x.n := BitVec.not_le.1 hlt
    exact ⟨_, _, State.stepReadByte_enabled h.initialised_left hx hown hop hlt,
      State.stepReadByte_enabled h.initialised_right (h.txn ▸ hx) hown hop hlt, h.readByteOf x⟩

/-- READ_END in both states. -/
theorem stepReadEnd (h : SameProtected s u) (c : CallerId) :
    ∃ s' u', s.stepReadEnd c = .next s' ∧ u.stepReadEnd c = .next u' ∧ SameProtected s' u' := by
  by_cases hdis : ∀ x, s.txn = some x → x.owner ≠ c ∨ x.op ≠ .read ∨ x.i ≠ x.n
  · exact ⟨s, u, State.stepReadEnd_not_enabled hdis, State.stepReadEnd_not_enabled (h.txn ▸ hdis), h⟩
  · push Not at hdis
    obtain ⟨x, hx, hown, hop, hin⟩ := hdis
    exact ⟨_, _, State.stepReadEnd_enabled hx hown hop hin, State.stepReadEnd_enabled (h.txn ▸ hx) hown hop hin,
      h.finish c _⟩

/-- WRITE_COPY in both states. -/
theorem stepWriteCopy (h : SameProtected s u) (c : CallerId) :
    ∃ s' u', s.stepWriteCopy c = .next s' ∧ u.stepWriteCopy c = .next u' ∧ SameProtected s' u' := by
  by_cases hdis : ∀ x, s.txn = some x → x.owner ≠ c ∨ x.op ≠ .write
  · exact ⟨s, u, State.stepWriteCopy_not_enabled hdis, State.stepWriteCopy_not_enabled (h.txn ▸ hdis), h⟩
  · push Not at hdis
    obtain ⟨x, hx, hown, hop⟩ := hdis
    refine ⟨_, _, State.stepWriteCopy_enabled h.initialised_left hx hown hop,
      State.stepWriteCopy_enabled h.initialised_right (h.txn ▸ hx) hown hop, ?_⟩
    rw [h.getAnswer]
    exact (h.memRead _ _).finishWrite c _

/-- A move of the critical section does the same in both states (R48). -/
theorem fetchMove (h : SameProtected s u) {c : CallerId} {m : Move} (hm : criticalMove c m) :
    ∃ s' u', fetchMove m s = .answer (.next s') ∧ fetchMove m u = .answer (.next u') ∧ SameProtected s' u' := by
  rcases hm with rfl | rfl | rfl
  · obtain ⟨s', u', hs, hu, h'⟩ := h.stepReadByte c
    exact ⟨s', u', congrArg Fetched.answer hs, congrArg Fetched.answer hu, h'⟩
  · obtain ⟨s', u', hs, hu, h'⟩ := h.stepReadEnd c
    exact ⟨s', u', congrArg Fetched.answer hs, congrArg Fetched.answer hu, h'⟩
  · obtain ⟨s', u', hs, hu, h'⟩ := h.stepWriteCopy c
    exact ⟨s', u', congrArg Fetched.answer hs, congrArg Fetched.answer hu, h'⟩

end SameProtected

/-! ## Noninterference -/

/-- While c holds the lock, a run of all callers' moves from `s` ends as the run of c's moves alone does from any `u` that
agrees with `s` in all that the lock protects: c's moves do the same on both sides, and the others' do nothing to it. -/
theorem runMoves_own_of_runMoves {c : CallerId} {t : State} {ms : List Move} :
    ∀ {s u : State}, s.Inv → SameProtected s u → (∀ m ∈ ms, moveCaller m = some c → criticalMove c m) →
      runMoves ms s = .next t → t.lock = .held c →
      ∃ v, runMoves (ms.filter fun m => moveCaller m = some c) u = .next v ∧ t.critical = v.critical := by
  induction ms with
  | nil =>
    rintro s u - h - ⟨⟩ -
    exact ⟨_, rfl, h.critical⟩
  | cons m ms ih =>
    intro s u hinv h hms hrun hl
    have hacq : ∀ m' ∈ m :: ms, m' ≠ .acquire c := fun m' hm' hacq => by
      have hcrit := hms m' hm' (hacq ▸ rfl)
      simp [hacq, criticalMove] at hcrit
    have hheld : s.lock = .held c := lock_held_before_runMoves hacq hrun hl
    obtain ⟨s', hstep, e, hrun'⟩ := exists_of_runMoves_cons hrun
    have hinv' : s'.Inv := e.inv (hinv.setSchedule ms)
    obtain ⟨hm, hms⟩ := List.forall_mem_cons.1 hms
    by_cases hown : moveCaller m = some c
    · rw [List.filter_cons_of_pos (by simpa using hown)]
      obtain ⟨s'', u', hs, hu, h'⟩ := (h.setSchedule ms (ms.filter fun m => moveCaller m = some c)).fetchMove (hm hown)
      obtain rfl : s' = s'' := by simpa [step_of_answer (s := s.setSchedule (m :: ms)) rfl hs] using hstep.symm
      rw [runMoves_cons hu]
      exact ih hinv' h' hms hrun' hl
    · rw [List.filter_cons_of_neg (by simpa using hown)]
      obtain ⟨-, haddrW, hi⟩ := e.kept
      have hcrit : s'.critical = s.critical :=
        e.critical_of_other (hinv.setSchedule ms) h.initialised_left hheld hown
      exact ih hinv' ⟨hcrit.trans h.critical, haddrW.trans h.addrW, hi h.initialised_left, h.initialised_right⟩ hms hrun' hl

/-- Settles O45: the run of all moves and the run of c's own start from one state. -/
theorem otherCallersDoNotDisturbTheHolder : Obligations.OtherCallersDoNotDisturbTheHolder := by
  intro s t c ms hinv hi _ hms hrun hl
  exact runMoves_own_of_runMoves hinv ⟨rfl, rfl, hi, hi⟩ hms hrun hl

end Sys2Proof.Machine
end

section
/-! PROOFS. READ and WRITE whole (spec/41_device_adapter.md R37 to R47): what each answers, copies and leaves, for every
answer of the copy primitive. -/

namespace Sys2Proof.Machine

/-! ## The copies of a READ -/

/-- The first k copies of a READ from the state `s`, all answered Ok: the advanced seeds, to addresses one after another
(R39, R55). -/
def State.okCopies (s : State) (sp : Space) (addr : Addr) (k : Nat) : List CopyRecord :=
  (List.range k).map fun j => .memWrite sp ((addr + j) % 2 ^ s.addrW) (lfsrNext^[j + 1] s.seed) .ok

@[simp] theorem State.okCopies_length (s : State) (sp : Space) (addr : Addr) (k : Nat) :
    (s.okCopies sp addr k).length = k := by
  simp [State.okCopies]

@[simp] theorem State.okCopies_countP (s : State) (sp : Space) (addr : Addr) (k : Nat) :
    (s.okCopies sp addr k).countP copyOk = k := by
  simp [State.okCopies, List.countP_map, Function.comp_def, copyOk]

/-- k copies that all succeed. -/
theorem copyMany_copies_of_ok (sp : Space) (addr : Addr) {s : State} {k : Nat} (hk : k ≤ 8)
    (hok : ∀ j < k, s.putAnswerAt j = .ok) : (copyMany sp addr k 0 s).copies = s.copies ++ s.okCopies sp addr k := by
  rw [copyMany_copies]
  refine congrArg (s.copies ++ ·) (List.map_congr_left fun j hj => ?_)
  have hj : j < k := List.mem_range.1 hj
  rw [count_zero_add, byteAddr_ofNat _ _ (by omega), hok j hj]

/-- k copies that succeed, and one more that fails: its byte is the next advance of the seed (R40). -/
theorem copyMany_copies_of_fail (sp : Space) (addr : Addr) {s : State} {k : Nat} {st : Status} (hk : k ≤ 8)
    (hok : ∀ j < k, s.putAnswerAt j = .ok) (hfail : s.putAnswerAt k = .fail st) :
    (copyMany sp addr (k + 1) 0 s).copies = s.copies ++ s.okCopies sp addr k ++
      [.memWrite sp ((addr + k) % 2 ^ s.addrW) (lfsrNext^[k + 1] s.seed) (.fail st)] := by
  have hans : (copyMany sp addr k 0 s).putAnswer = .fail st := by
    rw [State.putAnswer_eq, copyMany_putAnswerAt, Nat.zero_add, hfail]
  rw [copyMany_succ, State.copyOut_copies, copyMany_copies_of_ok sp addr hk hok, copyMany_seed, hans, count_zero_add,
    byteAddr_ofNat _ _ (by omega), Function.iterate_succ_apply']

/-! ## A READ that finds the lock free -/

/-- What a READ of the requester leaves after `m` copies, with the status `st`. -/
def State.readDone (s : State) (sp : Space) (len : Len) (addr : Addr) (m : Nat) (st : Status) : State :=
  (copyMany sp addr m 0 (s.entered ⟨.read, sp, len, addrBits s.addrW addr⟩)).finish s.requester st

section
variable (s : State) (sp : Space) (len : Len) (addr : Addr)

/-- Where no copy of it fails, a READ makes min(len, 8) copies and responds their number (R37). -/
theorem State.afterRead_of_ok (hok : ∀ j < min len.toNat 8, s.putAnswerAt j = .ok) :
    s.afterRead sp len addr = s.readDone sp len addr (min len.toNat 8) (BitVec.ofNat 32 (min len.toNat 8)) :=
  (readLocked_eq s.requester sp len addr (s.entered _) (le_refl _) hok (.inl rfl)).trans (by rw [if_pos rfl]; rfl)

/-- Where its copy of byte k is the first that fails, a READ makes k + 1 copies and responds k (R40). -/
theorem State.afterRead_of_fail {k : Nat} {st : Status} (hk : k < min len.toNat 8) (hok : ∀ j < k, s.putAnswerAt j = .ok)
    (hfail : s.putAnswerAt k = .fail st) : s.afterRead sp len addr = s.readDone sp len addr (k + 1) (BitVec.ofNat 32 k) :=
  (readLocked_eq s.requester sp len addr (s.entered _) hk.le hok (.inr ⟨st, hfail⟩)).trans (by rw [if_neg hk.ne]; rfl)

/-- Whatever the answers, a READ makes some copies and responds some status. -/
theorem State.exists_afterRead_eq : ∃ m st, s.afterRead sp len addr = s.readDone sp len addr m st :=
  readLocked_shape s.requester sp len addr (s.entered _)

variable (m : Nat) (st : Status)

@[simp] theorem State.readDone_seed : (s.readDone sp len addr m st).seed = lfsrNext^[m] s.seed := copyMany_seed ..
@[simp] theorem State.readDone_lock : (s.readDone sp len addr m st).lock = .free := rfl
@[simp] theorem State.readDone_txn : (s.readDone sp len addr m st).txn = none := rfl
@[simp] theorem State.readDone_puts : (s.readDone sp len addr m st).puts = s.puts.drop m := copyMany_puts ..
@[simp] theorem State.readDone_draws : (s.readDone sp len addr m st).draws = s.draws + m := copyMany_draws ..
@[simp] theorem State.readDone_caller_same : (s.readDone sp len addr m st).caller s.requester = .done st :=
  State.finish_caller_same ..

theorem State.readDone_caller_other {d : CallerId} (hd : d ≠ s.requester) :
    (s.readDone sp len addr m st).caller d = s.caller d :=
  State.entered_finish_caller_other _ st (copyMany_caller sp addr m 0 _) d hd

/-- A READ changes no field but those it has to do with (R37). -/
theorem State.readDone_frame :
    { s.readDone sp len addr m st with
      seed := s.seed, lock := s.lock, txn := s.txn, callers := s.callers, kernel := s.kernel, user := s.user
      copies := s.copies, puts := s.puts, draws := s.draws } = s := by
  simp [State.readDone]

/-- The copies of a READ, none of which fails. -/
theorem State.readDone_copies_of_ok {k : Nat} (hk : k ≤ 8) (hok : ∀ j < k, s.putAnswerAt j = .ok) :
    (s.readDone sp len addr k st).copies = s.copies ++ s.okCopies sp addr k :=
  copyMany_copies_of_ok sp addr hk hok

/-- The copies of a READ, the last of which fails. -/
theorem State.readDone_copies_of_fail {k : Nat} {fault : Status} (hk : k ≤ 8) (hok : ∀ j < k, s.putAnswerAt j = .ok)
    (hfail : s.putAnswerAt k = .fail fault) :
    (s.readDone sp len addr (k + 1) st).copies = s.copies ++ s.okCopies sp addr k ++
      [.memWrite sp ((addr + k) % 2 ^ s.addrW) (lfsrNext^[k + 1] s.seed) (.fail fault)] :=
  copyMany_copies_of_fail sp addr hk hok hfail

end

/-- Settles O11: with no failure the READ makes its min(len, 8) copies, and all of them are answered Ok. -/
theorem readWithoutFailureCopiesTheClampedCount : Obligations.ReadWithoutFailureCopiesTheClampedCount := by
  intro s sp len addr hready hl hok
  refine ⟨_, (exec_read_of_free hready hl sp len addr).trans (congrArg _ (s.afterRead_of_ok sp len addr hok)), ?_⟩
  exact ⟨State.readDone_seed .., State.readDone_caller_same .., rfl, rfl,
    s.readDone_copies_of_ok sp len addr _ (Nat.min_le_right ..) hok, State.readDone_puts .., State.readDone_draws ..,
    fun _ hd => s.readDone_caller_other sp len addr _ _ hd, s.readDone_frame sp len addr _ _⟩

/-- Settles O12: the READ makes k copies that succeed and the one that fails, and no more. -/
theorem readStopsAtTheFirstFailedCopy : Obligations.ReadStopsAtTheFirstFailedCopy := by
  intro s sp len addr k st hready hl hk hok hfail
  refine ⟨_, (exec_read_of_free hready hl sp len addr).trans (congrArg _ (s.afterRead_of_fail sp len addr hk hok hfail)), ?_⟩
  exact ⟨State.readDone_seed .., State.readDone_caller_same .., rfl, rfl,
    s.readDone_copies_of_fail sp len addr _ (by omega) hok hfail, State.readDone_puts .., State.readDone_draws ..,
    fun _ hd => s.readDone_caller_other sp len addr _ _ hd, s.readDone_frame sp len addr _ _⟩

/-- A READ for every answer of the copy primitive: k copies succeed, all of them or all before one that fails, and the READ
responds k. -/
theorem State.afterRead_cases (s : State) (sp : Space) (len : Len) (addr : Addr) :
    ∃ k ≤ min len.toNat 8, (s.afterRead sp len addr).caller s.requester = .done (BitVec.ofNat 32 k) ∧
      ((k = min len.toNat 8 ∧ (s.afterRead sp len addr).copies = s.copies ++ s.okCopies sp addr k) ∨
       (k < min len.toNat 8 ∧ ∃ r, copyOk r = false ∧
          (s.afterRead sp len addr).copies = s.copies ++ (s.okCopies sp addr k ++ [r]))) := by
  obtain ⟨k, hk, hok, rfl | ⟨hlt, st, hfail⟩⟩ := s.exists_first_failure (min len.toNat 8)
  · rw [s.afterRead_of_ok sp len addr hok]
    exact ⟨_, hk, State.readDone_caller_same .., .inl ⟨rfl, s.readDone_copies_of_ok sp len addr _ (by omega) hok⟩⟩
  · rw [s.afterRead_of_fail sp len addr hlt hok hfail]
    refine ⟨k, hk, State.readDone_caller_same .., .inr ⟨hlt, _, ?_,
      (s.readDone_copies_of_fail sp len addr _ (by omega) hok hfail).trans (List.append_assoc ..)⟩⟩
    rfl

/-- A READ leaves the lock free (R42). -/
theorem State.afterRead_lock (s : State) (sp : Space) (len : Len) (addr : Addr) : (s.afterRead sp len addr).lock = .free :=
  rfl

/-- A count of at most 8, as a signed status (R41). -/
theorem toInt_ofNat_of_le_eight {k : Nat} (hk : k ≤ 8) : (BitVec.ofNat 32 k).toInt = k := by
  have hnat : (BitVec.ofNat 32 k).toNat = k := by rw [BitVec.toNat_ofNat]; omega
  rw [BitVec.toInt_eq_toNat_of_lt (by omega), hnat]

/-- Settles O16: the status is the number of copies that succeeded, all but at most one that failed. -/
theorem readRespondsWithTheBytesCopied : Obligations.ReadRespondsWithTheBytesCopied := by
  intro s sp len addr hready hl
  obtain ⟨k, hk, hdone, hcopies⟩ := s.afterRead_cases sp len addr
  obtain ⟨new, hnew, hcount⟩ : ∃ new, (s.afterRead sp len addr).copies = s.copies ++ new ∧ new.countP copyOk = k := by
    obtain ⟨-, h⟩ | ⟨-, r, hr, h⟩ := hcopies
    · exact ⟨_, h, s.okCopies_countP sp addr k⟩
    · exact ⟨_, h, by simp [hr]⟩
  have hst : (BitVec.ofNat 32 k).toInt = k := toInt_ofNat_of_le_eight (by omega)
  exact ⟨_, new, _, exec_read_of_free hready hl sp len addr, hnew, hdone, by omega, by omega, by omega,
    s.afterRead_lock sp len addr⟩

/-- Settles O17: the READ makes min(len, 8) copies, or its last copy failed. -/
theorem readAttemptsAtMostEightCopies : Obligations.ReadAttemptsAtMostEightCopies := by
  intro s sp len addr hready hl
  obtain ⟨k, hk, -, ⟨hall, hcopies⟩ | ⟨hlt, r, hr, hcopies⟩⟩ := s.afterRead_cases sp len addr
  · refine ⟨_, _, exec_read_of_free hready hl sp len addr, hcopies, ?_, fun h => ?_, fun h => .inl ?_⟩ <;>
      rw [State.okCopies_length] at * <;> omega
  · have hfailed : ∃ r' ∈ s.okCopies sp addr k ++ [r], copyOk r' = false := ⟨r, by simp, hr⟩
    refine ⟨_, _, exec_read_of_free hready hl sp len addr, hcopies, ?_, fun _ => hfailed, fun _ => .inr hfailed⟩
    rw [List.length_append, State.okCopies_length]
    exact hlt

/-! ## The frame of READ -/

/-- Bytes outside the addresses of its min(len, 8) bytes, and of the other space, are as before a READ. -/
theorem State.afterRead_bufByte_other (s : State) (sp sp' : Space) (len : Len) (addr a : Addr)
    (h : sp' ≠ sp ∨ ∀ j < min len.toNat 8, a ≠ byteAddr s.addrW addr (BitVec.ofNat 4 j)) :
    (s.afterRead sp len addr).bufByte sp' a = s.bufByte sp' a := by
  obtain ⟨k, hk, hok, hst⟩ := s.exists_first_failure (min len.toNat 8)
  rw [State.afterRead, readLocked_bufByte s.requester sp len addr (s.entered _) hk hok (hst.imp id And.right),
    copyMany_bufByte_other, State.entered_bufByte]
  exact h.imp id fun ha j hj => by rw [count_zero_add]; exact ha j (by omega)

/-- Settles O14: a READ that runs touches only its bytes, and one that waits touches only its caller's state. -/
theorem readFrame : Obligations.ReadFrame := by
  intro s t sp len addr h
  obtain ⟨-, ⟨-, ht⟩ | ⟨-, rfl⟩⟩ := execRead_eq_next.1 h
  · replace ht : t = s.afterRead sp len addr := ht
    obtain ⟨m, st, hdone⟩ := s.exists_afterRead_eq sp len addr
    refine ⟨fun d hd => ?_, fun a ha => ?_, fun sp' a hsp => ?_, ?_⟩
    · rw [ht, hdone, s.readDone_caller_other sp len addr m st hd]
    · rw [ht, s.afterRead_bufByte_other sp sp len addr a (.inr ha)]
    · rw [ht, s.afterRead_bufByte_other sp sp' len addr a (.inl hsp)]
    · rw [ht, hdone, State.readDone_frame]
  · exact ⟨fun d hd => State.setCaller_caller_other s hd _, fun a _ => State.setCaller_bufByte ..,
      fun sp' a _ => State.setCaller_bufByte .., rfl⟩

/-! ## WRITE -/

/-- Settles O22: a WRITE of such a length is issued as Done, whatever the lock. -/
theorem writeOfABadLengthFailsAtOnce : Obligations.WriteOfABadLengthFailsAtOnce := by
  intro s sp len addr hready hlen
  exact ⟨_, (execWrite_bad_eq_next hlen).2 ⟨hready, rfl⟩, State.caller_set_same (by simp) rfl, State.Inv.einvalNegative,
    fun _ hd => State.setCaller_caller_other s hd _, rfl⟩

/-- The state a WRITE of length 1 of the requester leaves where it finds the lock free and its MemRead answers `ans` (R43). -/
def State.writeDone (s : State) (sp : Space) (addr : Addr) (ans : GetAnswer) : State :=
  ((s.entered ⟨.write, sp, 1, addrBits s.addrW addr⟩).memRead sp (addrBits s.addrW addr)).finishWrite s.requester ans

/-- An admitted WRITE of length 1 that finds the lock free runs to its status. -/
theorem exec_write_of_free {s : State} (hready : s.Ready) (hl : s.lock = .free) (sp : Space) (addr : Addr) :
    exec (.write sp 1 addr) s = .next (s.writeDone sp addr s.getAnswer) :=
  execWrite_one_eq_next.2 ⟨hready, .inl ⟨hl, rfl⟩⟩

/-- A WRITE changes the state of its own caller only. -/
theorem State.writeDone_caller_other (s : State) (sp : Space) (addr : Addr) (ans : GetAnswer) (d : CallerId)
    (hd : d ≠ s.requester) : (s.writeDone sp addr ans).caller d = s.caller d := by
  rw [State.writeDone, State.finishWrite_caller_other _ _ _ hd, State.memRead_caller, State.acquire_caller_other _ hd,
    State.setCaller_caller_other _ hd]

/-- A WRITE makes one MemRead, recorded with the answer it is given. -/
theorem State.writeDone_copies (s : State) (sp : Space) (addr : Addr) (ans : GetAnswer) :
    (s.writeDone sp addr ans).copies = s.copies ++ [.memRead sp (addr % 2 ^ s.addrW) s.getAnswer] := by
  cases ans <;> rfl

/-- A WRITE changes no field but those it has to do with (R43). -/
theorem State.writeDone_frame (s : State) (sp : Space) (addr : Addr) (ans : GetAnswer) :
    { s.writeDone sp addr ans with
      seed := s.seed, lock := s.lock, txn := s.txn, callers := s.callers, copies := s.copies, gets := s.gets
      draws := s.draws } = s := by
  cases ans <;> rfl

/-- Settles O23: the answer Ok(b) ends the WRITE with the seed b and the status +1. -/
theorem writeReplacesTheSeed : Obligations.WriteReplacesTheSeed := by
  intro s sp addr b hready hl hans
  have hexec := exec_write_of_free hready hl sp addr
  have hcopies := s.writeDone_copies sp addr (.ok b)
  rw [hans] at hexec hcopies
  exact ⟨_, hexec, rfl, State.finish_caller_same .., hcopies, s.gets.drop_one.symm, rfl, rfl, rfl,
    s.writeDone_caller_other sp addr _, s.writeDone_frame sp addr _⟩

/-- Settles O24: the answer Fail(st) ends the WRITE with the seed as it was and the status st. -/
theorem writeWithAFailedCopyKeepsTheSeed : Obligations.WriteWithAFailedCopyKeepsTheSeed := by
  intro s sp addr st hready hl hans
  have hexec := exec_write_of_free hready hl sp addr
  have hcopies := s.writeDone_copies sp addr (.fail st)
  rw [hans] at hexec hcopies
  exact ⟨_, hexec, rfl, State.finish_caller_same .., hcopies, s.gets.drop_one.symm, rfl, rfl, rfl,
    s.writeDone_caller_other sp addr _, s.writeDone_frame sp addr _⟩

/-- Settles O25: a WRITE that runs makes a MemRead, which stores nothing; one that waits or fails at once only sets its
caller's state. -/
theorem writeFrame : Obligations.WriteFrame := by
  intro s t sp len addr h
  by_cases hlen : len = 1
  · subst hlen
    obtain ⟨-, ⟨-, rfl⟩ | ⟨-, rfl⟩⟩ := execWrite_one_eq_next.1 h
    · have hframe := s.writeDone_frame sp addr s.getAnswer
      exact ⟨s.writeDone_caller_other sp addr s.getAnswer,
        State.bufByte_congr (congrArg State.kernel hframe :) (congrArg State.user hframe :), hframe⟩
    · exact ⟨fun d hd => State.setCaller_caller_other s hd _, State.setCaller_bufByte s _ _, rfl⟩
  · obtain ⟨-, rfl⟩ := (execWrite_bad_eq_next hlen).1 h
    exact ⟨fun d hd => State.setCaller_caller_other s hd _, State.setCaller_bufByte s _ _, rfl⟩

end Sys2Proof.Machine
end

section
/-! PROOFS. READ and WRITE whole are the sequences of their steps (spec/41_device_adapter.md R37, R43, R49). -/

namespace Sys2Proof.Machine

/-! ## Runs under the lock -/

section
variable {s t : State} {c : CallerId} {rest : List Move}

theorem run_readByte (h : (s.setSchedule rest).stepReadByte c = .next t) (k : Nat) :
    Host.Core.run Sys2Proof.core (k + 1) (s.setSchedule (.readByte c :: rest)) = Host.Core.run Sys2Proof.core k t :=
  run_answer (m := .readByte c) (congrArg Fetched.answer h) k

theorem run_readEnd (h : (s.setSchedule rest).stepReadEnd c = .next t) (k : Nat) :
    Host.Core.run Sys2Proof.core (k + 1) (s.setSchedule (.readEnd c :: rest)) = Host.Core.run Sys2Proof.core k t :=
  run_answer (m := .readEnd c) (congrArg Fetched.answer h) k

theorem run_writeCopy (h : (s.setSchedule rest).stepWriteCopy c = .next t) (k : Nat) :
    Host.Core.run Sys2Proof.core (k + 1) (s.setSchedule (.writeCopy c :: rest)) = Host.Core.run Sys2Proof.core k t :=
  run_answer (m := .writeCopy c) (congrArg Fetched.answer h) k

end

/-! ## Moves that are skipped -/

/-- In the state `s` the move is not enabled, whatever moves are to come: it is taken off the schedule and changes nothing
(log 3). -/
def State.Skips (s : State) (m : Move) : Prop :=
  ∀ ms, fetchMove m (s.setSchedule ms) = .answer (.next (s.setSchedule ms))

/-- A run of moves that are skipped only takes them off the schedule. -/
theorem run_skipped {s : State} {ms : List Move} (h : ∀ m ∈ ms, s.Skips m) (rest : List Move) :
    Host.Core.run Sys2Proof.core ms.length (s.setSchedule (ms ++ rest)) = .next (s.setSchedule rest) := by
  induction ms with
  | nil => rfl
  | cons m ms ih =>
    obtain ⟨hm, hms⟩ := List.forall_mem_cons.1 h
    rw [List.length_cons, List.cons_append, run_answer (hm _), ih hms]

section
variable {s : State}

/-- With nothing in flight no step under the lock is enabled. -/
theorem State.skips_of_txn_none (hx : s.txn = none) {c : CallerId} {m : Move} (hm : criticalMove c m) : s.Skips m := by
  have hnone : ∀ {p : Txn → Prop} x, s.txn = some x → p x := fun x h => by simp [hx] at h
  intro ms
  rcases hm with rfl | rfl | rfl
  · exact congrArg Fetched.answer (State.stepReadByte_not_enabled hnone)
  · exact congrArg Fetched.answer (State.stepReadEnd_not_enabled hnone)
  · exact congrArg Fetched.answer (State.stepWriteCopy_not_enabled hnone)

/-- READ_BYTE is skipped once a READ has no byte left. -/
theorem State.skips_readByte_of_le {x : Txn} (hx : s.txn = some x) (hle : x.n ≤ x.i) (c : CallerId) :
    s.Skips (.readByte c) := fun _ =>
  congrArg Fetched.answer (State.stepReadByte_not_enabled fun y hy => by
    obtain rfl : x = y := Option.some.inj (hx.symm.trans hy)
    exact .inr (.inr hle))

/-- ACQUIRE of a caller that is Done is skipped. -/
theorem State.skips_acquire_of_done {c : CallerId} {st : Status} (hc : s.caller c = .done st) : s.Skips (.acquire c) :=
  fun ms => congrArg Fetched.answer (State.stepAcquire_not_waiting (s := s.setSchedule ms) fun q => by simp [hc])

end

/-! ## The request that is decoded -/

/-- An operation tells the request that asks for it. -/
theorem toInstr_injective : Function.Injective Request.toInstr := by
  rintro ⟨_ | _, sp, len, addr⟩ ⟨_ | _, sp', len', addr'⟩ h <;> cases h <;> rfl

/-- A request that decodes to an operation decodes to the request that asks for it. -/
theorem decodeRequest_of_decode {r : RawRequest} {q : Request} (h : decode r = .ok q.toInstr) : decodeRequest r = .ok q := by
  unfold decode at h
  split at h
  next q' hq' => rw [hq', toInstr_injective (Except.ok.inj h)]
  next => cases h

/-- ISSUE of an admitted request, whatever moves are to come after it. -/
theorem fetchMove_issue_of_ready {s : State} (hready : s.Ready) {r : RawRequest} {q : Request} {v : CallerState}
    (hd : decodeRequest r = .ok q) (hv : issuedState s.einval (s.onPort q) = v) (ms : List Move) :
    fetchMove (.issue s.requester r) (s.setSchedule ms) = .answer (.next ((s.setCaller s.requester v).setSchedule ms)) := by
  obtain ⟨hi, hlt, hidle⟩ := hready
  subst hv
  exact fetchMove_issue (s := s.setSchedule ms) hd hi hlt hidle

/-- ISSUE of a request that may wait for the lock, and then ACQUIRE of the free lock: the caller has it (R49). -/
theorem run_issue_acquire {s : State} (hready : s.Ready) (hl : s.lock = .free) {r : RawRequest} {q : Request}
    (hd : decodeRequest r = .ok q) (hlen : q.op = .read ∨ q.len = 1) (rest : List Move) (k : Nat) :
    Host.Core.run Sys2Proof.core (k + 2) (s.setSchedule (.issue s.requester r :: .acquire s.requester :: rest)) =
      Host.Core.run Sys2Proof.core k ((s.entered (s.onPort q)).setSchedule rest) := by
  have hissue := fetchMove_issue_of_ready hready hd (issuedState_of_len_ok s.einval (q := s.onPort q) hlen)
    (.acquire s.requester :: rest)
  have hacquire : fetchMove (.acquire s.requester) ((s.setCaller s.requester (.waiting (s.onPort q))).setSchedule rest) =
      .answer (.next ((s.entered (s.onPort q)).setSchedule rest)) :=
    congrArg Fetched.answer (State.stepAcquire_enabled hready.1 (State.caller_set_same (by simp) rfl) hl)
  rw [run_answer hissue, run_answer hacquire]

/-! ## READ -/

/-- What is left of a READ under the lock with `m` bytes left, the next of index i: the loop of R37 from there, then FINISH
with its count. -/
def readRest (c : CallerId) (sp : Space) (addr : Addr) (m : Nat) (i : Count) (s : State) : State :=
  (readLoop sp addr m i s).2.finish c (statusOfCount (readLoop sp addr m i s).1)

section
variable (c : CallerId) (sp : Space) (addr : Addr) (m : Nat) (i : Count) (s : State)

theorem readLocked_eq_readRest (len : Len) :
    readLocked c sp len addr s = readRest c sp addr (clampedCount len).toNat 0 s := rfl

theorem readRest_zero : readRest c sp addr 0 i s = s.finish c (statusOfCount i) := rfl

theorem readRest_succ_of_ok {s : State} (h : s.putAnswer = .ok) : readRest c sp addr (m + 1) i s =
    readRest c sp addr m (i + 1) (s.copyOut sp (byteAddr s.addrW addr i)) := by
  simp only [readRest, readLoop, h]

theorem readRest_succ_of_fail {s : State} {st : Status} (h : s.putAnswer = .fail st) :
    readRest c sp addr (m + 1) i s = (s.copyOut sp (byteAddr s.addrW addr i)).finish c (statusOfCount i) := by
  simp only [readRest, readLoop, h]

end

/-- With nothing in flight READ_BYTEs and a READ_END change nothing. -/
theorem run_readBytes_of_txn_none {s : State} (hx : s.txn = none) (c : CallerId) (k : Nat) :
    Host.Core.run Sys2Proof.core (k + 1) (s.setSchedule (List.replicate k (.readByte c) ++ .readEnd c :: s.schedule)) =
      .next s := by
  have hcrit : ∀ m ∈ List.replicate k (.readByte c) ++ [.readEnd c], criticalMove c m := by
    simp only [List.mem_append, List.mem_replicate, List.mem_singleton]
    rintro m (⟨-, rfl⟩ | rfl)
    exacts [.inl rfl, .inr (.inl rfl)]
  have hrun := run_skipped (fun m hm => State.skips_of_txn_none hx (hcrit m hm)) s.schedule
  rwa [List.length_append, List.length_replicate, List.length_singleton, List.append_assoc] at hrun

/-- READ_BYTE as often as bytes are left, or oftener, and READ_END are the rest of the READ: after a copy that failed, and
with no byte left, READ_BYTE is skipped. -/
theorem run_readBytes (c : CallerId) (sp : Space) (addr : Addr) (n : Count) (k : Nat) :
    ∀ (i : Count) (s : State), s.initialised = true → i.toNat ≤ n.toNat → n.toNat ≤ i.toNat + k →
      Host.Core.run Sys2Proof.core (k + 1) ((s.setTxn (some ⟨c, .read, sp, addr, n, i⟩)).setSchedule
          (List.replicate k (.readByte c) ++ .readEnd c :: s.schedule)) =
        .next (readRest c sp addr (n.toNat - i.toNat) i s) := by
  induction k with
  | zero =>
    intro i s hi hle hk
    obtain rfl : i = n := BitVec.eq_of_toNat_eq (by omega)
    rw [Nat.sub_self, readRest_zero]
    exact run_readEnd (State.stepReadEnd_enabled (x := ⟨c, .read, sp, addr, i, i⟩) rfl rfl rfl rfl) 0
  | succ k ih =>
    intro i s hi hle hk
    rw [List.replicate_succ, List.cons_append]
    by_cases hlt : i < n
    · obtain ⟨m, hm⟩ : ∃ m, n.toNat - i.toNat = m + 1 := ⟨n.toNat - i.toNat - 1, by bv_omega⟩
      have hbyte := fun ms => State.stepReadByte_enabled (c := c)
        (s := (s.setTxn (some ⟨c, .read, sp, addr, n, i⟩)).setSchedule ms) hi rfl rfl rfl hlt
      rw [run_readByte (hbyte _), hm, State.readByteOf, State.setSchedule_putAnswer, State.setTxn_putAnswer]
      cases hans : s.putAnswer with
      | ok =>
        have hsucc : (i + 1).toNat = i.toNat + 1 := by bv_omega
        obtain rfl : m = n.toNat - (i + 1).toNat := by omega
        rw [readRest_succ_of_ok _ _ _ _ _ hans]
        exact ih (i + 1) (s.copyOut sp (byteAddr s.addrW addr i)) hi (by omega) (by omega)
      | fail st =>
        rw [readRest_succ_of_fail _ _ _ _ _ hans]
        exact run_readBytes_of_txn_none (s := (s.copyOut sp _).finish c _) rfl c k
    · have hskip : State.Skips (s.setTxn (some ⟨c, .read, sp, addr, n, i⟩)) (.readByte c) :=
        State.skips_readByte_of_le rfl (BitVec.not_lt.1 hlt) c
      rw [run_answer (hskip _)]
      exact ih i s hi hle (by bv_omega)

/-- Settles O42: ISSUE and ACQUIRE take the lock, and the rest is the loop of R37 and its end. -/
theorem readIsTheSequenceOfItsSteps : Obligations.ReadIsTheSequenceOfItsSteps := by
  intro s r sp len addr rest hready hl hd
  have hissued := run_issue_acquire hready hl (decodeRequest_of_decode (q := ⟨.read, sp, len, addr⟩) hd) (.inl rfl)
    (List.replicate 8 (.readByte s.requester) ++ .readEnd s.requester :: rest) 9
  have hloop := run_readBytes s.requester sp (addrBits s.addrW addr) (clampedCount len) 8 0
    ((s.setSchedule rest).entered ⟨.read, sp, len, addrBits s.addrW addr⟩) hready.1 (Nat.zero_le _)
    (by rw [clampedCount_toNat]; simp)
  rw [hissued, exec_read_of_free (s := s.setSchedule rest) hready hl]
  refine hloop.trans (congrArg Host.Outcome.next ?_)
  exact (readLocked_eq_readRest ..).symm.trans (readLocked_addrBits s.requester sp len addr ((s.setSchedule rest).entered _))

/-! ## WRITE -/

/-- Settles O43: with length 1 the steps after ISSUE and ACQUIRE are WRITE_COPY alone, with another length the operation is
done with ISSUE and the others are skipped. -/
theorem writeIsTheSequenceOfItsSteps : Obligations.WriteIsTheSequenceOfItsSteps := by
  intro s r sp len addr rest hready hl hx hd
  have hdec : decodeRequest r = .ok ⟨.write, sp, len, addr⟩ := decodeRequest_of_decode hd
  by_cases hlen : len = 1
  · subst hlen
    have hcopy := State.stepWriteCopy_enabled (c := s.requester)
      (s := (s.entered ⟨.write, sp, 1, addrBits s.addrW addr⟩).setSchedule rest) hready.1 rfl rfl rfl
    rw [run_issue_acquire hready hl hdec (.inr rfl) _ 1, exec_write_of_free (s := s.setSchedule rest) hready hl]
    exact run_writeCopy hcopy 0
  · have hissue := fetchMove_issue_of_ready hready hdec
      (issuedState_of_bad_len s.einval (q := s.onPort ⟨.write, sp, len, addr⟩) rfl hlen)
      (.acquire s.requester :: .writeCopy s.requester :: rest)
    have hexec : exec (.write sp len addr) (s.setSchedule rest) =
        .next ((s.setCaller s.requester (.done (statusOfBadLength s.einval))).setSchedule rest) :=
      (execWrite_bad_eq_next hlen).2 ⟨hready, rfl⟩
    rw [hexec, run_answer hissue]
    refine run_skipped (ms := [.acquire s.requester, .writeCopy s.requester]) (List.forall_mem_cons.2 ⟨?_, ?_⟩) rest
    · exact State.skips_acquire_of_done (State.caller_set_same (by simp) rfl)
    · exact List.forall_mem_singleton.2 (State.skips_of_txn_none (s := s.setCaller _ _) hx (.inr (.inr rfl)))

end Sys2Proof.Machine
end

section
/-! PROOFS. What a caller can tell from a request that is not served as it asked (spec/60_exceptions.md R81, R86, R89): a
short count, the two spaces, and requests before INIT. -/

namespace Sys2Proof.Machine

/-! ## Requests before INIT -/

/-- Before INIT no request is admitted, whoever makes it (R82, R89). -/
theorem State.admissionFault_before_init {s : State} (hi : s.initialised = false) (c : CallerId) :
    s.admissionFault c = some .uninit :=
  if_pos hi

/-- ISSUE of a request that is not admitted stops under the name of the reason. -/
theorem State.issue_of_admissionFault {s : State} {c : CallerId} {f : Fault} (h : s.admissionFault c = some f) (q : Request) :
    s.issue c q = .fault f := by
  simp only [State.issue, h]

/-- What a request is decoded to as an operation is what it asks for (R69). -/
theorem decode_of_decodeRequest {r : RawRequest} {q : Request} (h : decodeRequest r = .ok q) : decode r = .ok q.toInstr := by
  simp only [decode, h]

/-- Every request asks for a READ or a WRITE, and is stopped as they are where it is not admitted. -/
theorem exec_toInstr_of_admissionFault {s : State} {f : Fault} (h : s.admissionFault s.requester = some f) (q : Request) :
    exec q.toInstr s = .fault f := by
  obtain ⟨op, sp, len, addr⟩ := q
  cases op with
  | read => exact (exec_request_of_admissionFault h sp len addr).1
  | write => exact (exec_request_of_admissionFault h sp len addr).2

/-- Settles O31: the admission check looks at `initialised` first, for the operation and for both forms of its request. -/
theorem requestsBeforeInitFault : Obligations.RequestsBeforeInitFault := by
  intro s hi
  refine ⟨exec_request_of_admissionFault (State.admissionFault_before_init hi _), fun c r q rest hd hs => ?_⟩
  obtain hs | hs := hs
  · refine step_of_answer hs ?_
    simp only [fetchMove, fetchIssue, hd, State.issue_of_admissionFault (s := s.setSchedule rest)
      (State.admissionFault_before_init hi c)]
  · rw [stepRunsTheDecodedRequest.1 s c r q.toInstr rest hs (decode_of_decodeRequest hd)]
    exact exec_toInstr_of_admissionFault (s := (s.setSchedule rest).setRequester c)
      (State.admissionFault_before_init hi c) q

/-! ## The count of a READ, and the copies that failed -/

/-- No copy before the first that fails is a failed one. -/
theorem State.copyOk_of_mem_okCopies {s : State} {sp : Space} {addr : Addr} {k : Nat} {r : CopyRecord}
    (hr : r ∈ s.okCopies sp addr k) : copyOk r = true :=
  List.countP_eq_length.1 ((s.okCopies_countP sp addr k).trans (s.okCopies_length sp addr k).symm) r hr

/-- Settles O18: the READ responds the number of its copies before the first that fails, and that is min(len, 8) where none
fails. -/
theorem shortCountMeansAFailedCopy : Obligations.ShortCountMeansAFailedCopy := by
  intro s sp len addr hready hl
  obtain ⟨k, hk, hdone, hcopies⟩ := s.afterRead_cases sp len addr
  have hst : (BitVec.ofNat 32 k).toNat = k := by rw [BitVec.toNat_ofNat]; omega
  obtain ⟨hall, hcopies⟩ | ⟨hlt, r, hr, hcopies⟩ := hcopies
  · refine ⟨_, _, _, exec_read_of_free hready hl sp len addr, hcopies, hdone, fun hshort => ?_, fun ⟨r, hmem, hr⟩ => ?_⟩
    · omega
    · simp [State.copyOk_of_mem_okCopies hmem] at hr
  · exact ⟨_, _, _, exec_read_of_free hready hl sp len addr, hcopies, hdone, fun _ => ⟨r, by simp, hr⟩, fun _ => by omega⟩

/-! ## The two spaces -/

/-- Of two states of one caller put one after the other, neither of them Idle, the table keeps the second. -/
theorem callersSet_callersSet {v w : CallerState} (hv : v ≠ .idle) (hw : w ≠ .idle) (c : CallerId)
    (l : List (CallerId × CallerState)) : callersSet c v (callersSet c w l) = callersSet c v l := by
  simp only [callersSet, hv, hw, if_false, keyedPut_put]

/-- What a READ leaves apart from the buffers and the copies made: nothing of it depends on the space or the address. -/
theorem State.readDone_apart_from_buffers (s : State) (sp : Space) (len : Len) (addr : Addr) (m : Nat) (st : Status) :
    { s.readDone sp len addr m st with kernel := s.kernel, user := s.user, copies := s.copies } =
      { s with seed := lfsrNext^[m] s.seed, puts := s.puts.drop m, draws := s.draws + m }.finish s.requester st := by
  simp [State.ext_iff, State.readDone, callersSet_callersSet]

/-- What a WRITE leaves apart from the buffers and the copies made: nothing of it depends on the space or the address. -/
theorem State.writeDone_apart_from_buffers (s : State) (sp : Space) (addr : Addr) (ans : GetAnswer) :
    { s.writeDone sp addr ans with kernel := s.kernel, user := s.user, copies := s.copies } =
      { s with gets := s.gets.tail, draws := s.draws + 1 }.finishWrite s.requester ans := by
  cases ans with
  | ok b => simp [State.ext_iff, State.writeDone, State.finishWrite, callersSet_callersSet]
  | fail st => simp [State.ext_iff, State.writeDone, State.finishWrite, callersSet_callersSet]

/-- The answers alone say how many copies a READ makes and what it responds, so both are the same for every space. -/
theorem State.exists_afterRead_eq_for_every_space (s : State) (len : Len) (addr : Addr) :
    ∃ m st, ∀ sp, s.afterRead sp len addr = s.readDone sp len addr m st := by
  obtain ⟨k, -, hok, rfl | ⟨hlt, fault, hfail⟩⟩ := s.exists_first_failure (min len.toNat 8)
  · exact ⟨_, _, fun sp => s.afterRead_of_ok sp len addr hok⟩
  · exact ⟨_, _, fun sp => s.afterRead_of_fail sp len addr hlt hok hfail⟩

/-- Settles O20: what each operation leaves apart from the buffers and the copies made does not depend on the space. -/
theorem spacesAreTreatedAlike : Obligations.SpacesAreTreatedAlike := by
  intro s len addr hready hl
  constructor
  · obtain ⟨m, st, hread⟩ := s.exists_afterRead_eq_for_every_space len addr
    refine ⟨_, _, exec_read_of_free hready hl .kernel len addr, exec_read_of_free hready hl .user len addr, ?_⟩
    rw [hread, hread, State.readDone_apart_from_buffers, State.readDone_apart_from_buffers]
  · by_cases hlen : len = 1
    · subst hlen
      refine ⟨_, _, exec_write_of_free hready hl .kernel addr, exec_write_of_free hready hl .user addr, ?_⟩
      rw [State.writeDone_apart_from_buffers, State.writeDone_apart_from_buffers]
    · exact ⟨_, _, (execWrite_bad_eq_next hlen).2 ⟨hready, rfl⟩, (execWrite_bad_eq_next hlen).2 ⟨hready, rfl⟩, rfl⟩

end Sys2Proof.Machine
end

section
/-! PROOFS. Reset and hazards (spec/70_reset_and_hazards.md): INIT and what it leaves for good (R91, R94), that an operation
under the lock runs to its response and frees the lock (R101, R102), and the first byte of a READ that follows a WRITE or a
READ that failed (R97, R98). -/

namespace Sys2Proof.Machine

/-! ## INIT -/

/-- Settles O28: INIT before initialisation leads to the state after INIT. -/
theorem initEstablishesTheResetState : Obligations.InitEstablishesTheResetState := fun _ hi =>
  ⟨_, execInit_eq_next.2 ⟨hi, rfl⟩, rfl, rfl, rfl, rfl, fun _ => rfl, rfl, (by decide : lfsrNext 0x2A = 0x95), rfl⟩

/-- Settles O30: INIT looks at `initialised` first. -/
theorem secondInitHasNoMove : Obligations.SecondInitHasNoMove := fun _ hi => if_pos hi

/-! ## What no step undoes -/

/-- No move changes the parameters N_CALLERS and STATUS_EINVAL (R9). -/
theorem MoveEffect.parameters_kept {s t : State} {m : Move} (e : MoveEffect s m t) :
    t.nCallers = s.nCallers ∧ t.einval = s.einval := by
  cases e with
  | readRun => exact ⟨copyMany_nCallers .., copyMany_einval ..⟩
  | _ => exact ⟨rfl, rfl⟩

/-- A move is the one INIT, or it changes neither `initialised` nor the registration (R94). -/
theorem MoveEffect.init_or_kept {s t : State} {m : Move} (e : MoveEffect s m t) :
    (m = .init ∧ s.initialised = false) ∨ (t.initialised = s.initialised ∧ t.registration = s.registration) := by
  cases e with
  | initialised hi => exact .inl ⟨rfl, hi⟩
  | readRun => exact .inr ⟨copyMany_initialised .., copyMany_registration ..⟩
  | _ => exact .inr ⟨rfl, rfl⟩

/-- Settles O47: every move keeps the parameters, and INIT, the one move that sets `initialised`, comes only before it. -/
theorem noStepUndoesInit : Obligations.NoStepUndoesInit := by
  intro s t hst
  obtain ⟨-, rfl⟩ | ⟨m, rest, hs, e⟩ := step_effect hst
  · exact ⟨rfl, rfl, rfl, fun hi => ⟨hi, rfl⟩, fun hi hi' => nomatch hi'.symm.trans hi⟩
  obtain ⟨hn, he⟩ := e.parameters_kept
  obtain ⟨-, hw, -⟩ := e.kept
  refine ⟨hn, hw, he, ?_⟩
  obtain ⟨rfl, hi⟩ | ⟨hinit, hreg⟩ := e.init_or_kept
  · exact ⟨fun hi' => (nomatch hi'.symm.trans hi), fun _ _ => ⟨rest, hs⟩⟩
  · exact ⟨fun hi => ⟨hinit.trans hi, hreg⟩, fun hi hi' => nomatch hi'.symm.trans (hinit.trans hi)⟩

/-! ## An operation under the lock runs to its response -/

/-- A move leaves the operation in flight the same, with no fewer bytes copied, or it is a step of its owner that ends it
(R102). -/
theorem MoveEffect.txn_continued_or_ended {s t : State} {m : Move} (e : MoveEffect s m t) (h : s.Inv) {x : Txn}
    (hx : s.txn = some x) :
    (∃ y, t.txn = some y ∧ y = { x with i := y.i } ∧ x.i ≤ y.i) ∨
    (t.txn = none ∧ t.lock = .free ∧ (∃ st, t.caller x.owner = .done st) ∧ criticalMove x.owner m) := by
  obtain ⟨hi, hl⟩ := h.lock_of_txn hx
  have hsame : ∀ {y}, s.txn = some y → y = x := fun hy => Option.some.inj (hy.symm.trans hx)
  cases e with
  | skipped | issued | requestIssued | taken => exact .inl ⟨x, hx, rfl, BitVec.le_refl _⟩
  | initialised hi' => simp [hi] at hi'
  | readRun _ _ _ hfree | writeRun _ _ _ hfree | acquired _ _ hfree => simp [hl] at hfree
  | byteCopied hy _ hlt =>
    obtain rfl := hsame hy
    exact .inl ⟨_, rfl, rfl, by bv_omega⟩
  | byteFailed hy =>
    obtain rfl := hsame hy
    exact .inr ⟨rfl, rfl, ⟨_, State.finish_caller_same ..⟩, .inl rfl⟩
  | readEnded hy =>
    obtain rfl := hsame hy
    exact .inr ⟨rfl, rfl, ⟨_, State.finish_caller_same ..⟩, .inr (.inl rfl)⟩
  | byteTaken hy _ _ st =>
    obtain rfl := hsame hy
    exact .inr ⟨rfl, rfl, ⟨st, State.finish_caller_same ..⟩, .inr (.inr rfl)⟩

/-- Settles O53: the move leaves or ends the operation; where it leaves it, that its owner is Active and holds the lock is
the invariant of the next state. -/
theorem anOperationRunsToItsResponse : Obligations.AnOperationRunsToItsResponse := by
  intro s t x h hx hst
  have ht : t.Inv := everyStepKeepsTheInvariant s t h hst
  have hstep : (∃ y, t.txn = some y ∧ y = { x with i := y.i } ∧ x.i ≤ y.i) ∨
      (t.txn = none ∧ t.lock = .free ∧ (∃ st, t.caller x.owner = .done st) ∧
        ∃ m rest, s.schedule = m :: rest ∧ criticalMove x.owner m) := by
    obtain ⟨-, rfl⟩ | ⟨m, rest, hs, e⟩ := step_effect hst
    · exact .inl ⟨x, hx, rfl, BitVec.le_refl _⟩
    · obtain hon | ⟨hnone, hfree, hdone, hm⟩ := e.txn_continued_or_ended (h.setSchedule rest) hx
      · exact .inl hon
      · exact .inr ⟨hnone, hfree, hdone, m, rest, hs, hm⟩
  refine hstep.imp (fun ⟨y, hy, hyx, hle⟩ => ?_) id
  have hown : y.owner = x.owner := by rw [hyx]
  obtain ⟨-, hl⟩ := ht.lock_of_txn hy
  exact ⟨y, hy, hyx, hle, hown ▸ hl, (ht.activeOwns _).2 ⟨y, hy, hown⟩⟩

/-! ## The lock is freed -/

/-- The loop of R37 copies no more bytes than are left. -/
theorem readLoop_count_le (sp : Space) (addr : Addr) (m : Nat) :
    ∀ (i : Count) (s : State), (readLoop sp addr m i s).1.toNat ≤ i.toNat + m := by
  induction m with
  | zero => exact fun i s => le_refl _
  | succ m ih =>
    intro i s
    unfold readLoop
    split
    · have hnext := ih (i + 1) (s.copyOut sp (byteAddr s.addrW addr i))
      have hsucc : (i + 1).toNat ≤ i.toNat + 1 := (BitVec.toNat_add ..).trans_le (Nat.mod_le _ _)
      omega
    · exact Nat.le_add_right ..

/-- Writing a state's own record changes nothing. -/
theorem State.setTxn_self {s : State} {x : Txn} (hx : s.txn = some x) : s.setTxn (some x) = s := by
  rw [← hx]
  rfl

/-- Eight READ_BYTE and a READ_END of its owner are the rest of a READ in flight. -/
theorem runMoves_read {s : State} {x : Txn} (h : s.Inv) (hx : s.txn = some x) (hop : x.op = .read) :
    runMoves (List.replicate 8 (.readByte x.owner) ++ [.readEnd x.owner]) s =
      .next (readRest x.owner x.space x.addr (x.n.toNat - x.i.toNat) x.i (s.setSchedule [])) := by
  obtain ⟨hn, hle, -⟩ := h.txnInRange x hx
  obtain ⟨hi, -⟩ := h.lock_of_txn hx
  obtain ⟨c, op, sp, addr, n, i⟩ := x
  obtain rfl : op = .read := hop
  have hrun := run_readBytes c sp addr n 8 i (s.setSchedule []) hi (by bv_omega) (by bv_omega)
  rwa [State.setTxn_self (s := s.setSchedule []) hx] at hrun

/-- Settles O46: the steps are the rest of the READ, which ends with the count of its loop, or the one copy of the WRITE. -/
theorem theLockIsFreedWithinNineSteps : Obligations.TheLockIsFreedWithinNineSteps := by
  intro s x h hi hx
  refine ⟨fun hop => ?_, fun hop => ?_⟩
  · obtain ⟨hn, hle, -⟩ := h.txnInRange x hx
    have hcount := readLoop_count_le x.space x.addr (x.n.toNat - x.i.toNat) x.i (s.setSchedule [])
    refine ⟨_, _, runMoves_read h hx hop, rfl, rfl, ?_,
      (State.finish_caller_same ..).trans (congrArg _ (BitVec.ofNat_toNat ..).symm)⟩
    bv_omega
  · have hcopy := State.stepWriteCopy_enabled (s := s.setSchedule []) hi hx rfl hop
    obtain ⟨v, st, hend⟩ := ((s.setSchedule []).memRead x.space x.addr).finishWrite_shape x.owner s.getAnswer
    refine ⟨_, st, run_writeCopy hcopy 0, State.finishWrite_lock .., State.finishWrite_txn .., ?_⟩
    exact (congrArg (State.caller · x.owner) hend).trans (State.finish_caller_same ..)

/-! ## The first byte of the next READ -/

/-- Once its caller has taken the status of a WRITE, the same caller's next request is admitted and finds the lock free. -/
theorem State.writeDone_take {s : State} (hready : s.Ready) (hr : Rising s.callers) (sp : Space) (addr : Addr) (b : Byte) :
    ∃ u, (s.writeDone sp addr (.ok b)).stepTake s.requester = .next u ∧ u.Ready ∧ u.lock = .free ∧ u.addrW = s.addrW ∧
      u.seed = b ∧ u.copies = (s.writeDone sp addr (.ok b)).copies := by
  obtain ⟨hinit, hlt, -⟩ := hready
  have hrising : Rising (s.writeDone sp addr (.ok b)).callers :=
    rising_callersSet (s.entered_callers_rising hr _) s.requester (.done statusOfByteTaken)
  exact ⟨_, State.stepTake_of_done (State.finish_caller_same ..),
    ⟨hinit, hlt, State.caller_set_idle hrising rfl⟩, rfl, rfl, rfl, rfl⟩

/-- Settles O26: the WRITE leaves the seed b, TAKE keeps it, and the READ copies its advance first. -/
theorem firstByteAfterAWriteIsNextOfIt : Obligations.FirstByteAfterAWriteIsNextOfIt := by
  intro s sp sp' addr addr' b len hready hr hl hans hlen
  have hwrite := exec_write_of_free hready hl sp addr
  rw [hans] at hwrite
  obtain ⟨u, htake, huready, hul, huw, huseed, hucopies⟩ := State.writeDone_take hready hr sp addr b
  obtain ⟨later, hfirst⟩ := u.afterRead_first_copy sp' hlen addr'
  rw [huw, huseed, hucopies] at hfirst
  exact ⟨_, u, _, hwrite, htake, exec_read_of_free huready hul sp' len addr', _, later, hfirst⟩

/-- The last copy of a READ whose copy of byte k is the first that fails: it is of the seed the READ leaves (R40). -/
theorem State.afterRead_failed_copy {s : State} (sp : Space) {len : Len} (addr : Addr) {k : Nat} {st : Status}
    (hk : k < min len.toNat 8) (hok : ∀ j < k, s.putAnswerAt j = .ok) (hfail : s.putAnswerAt k = .fail st) :
    ∃ older, (s.afterRead sp len addr).copies =
      older ++ [.memWrite sp (byteAddr s.addrW addr (BitVec.ofNat 4 k)) (s.afterRead sp len addr).seed (.fail st)] := by
  rw [s.afterRead_of_fail sp len addr hk hok hfail, State.readDone_seed, byteAddr_ofNat _ _ (by omega)]
  exact ⟨_, s.readDone_copies_of_fail sp len addr _ (by omega) hok hfail⟩

/-- Settles O27: the failed copy was of the seed the READ leaves, TAKE keeps it, and the retry copies its advance first. -/
theorem retryLosesTheFailedByte : Obligations.RetryLosesTheFailedByte := by
  intro s sp sp' addr addr' len len' k st hready hr hl hk hok hfail hlen'
  obtain ⟨u, htake, huready, hul, huw, huseed, hucopies⟩ := State.afterRead_take hready hr sp len addr
  obtain ⟨later, hfirst⟩ := u.afterRead_first_copy sp' hlen' addr'
  rw [huw, huseed, hucopies] at hfirst
  exact ⟨_, u, _, exec_read_of_free hready hl sp len addr, htake, exec_read_of_free huready hul sp' len' addr',
    State.afterRead_failed_copy sp addr hk hok hfail, _, later, hfirst⟩

end Sys2Proof.Machine
end
